-- ==== Sys2Proof/Word.lean ====
section
/-! DEFINITION. The values that move between the sub-blocks: 32-bit addresses, operand sizes and tainted values. -/

namespace Sys2Proof

/-- A 16-bit instruction word, opcode or extension (00_scope.md R4 `OPW`). -/
abbrev Word := BitVec 16

/-- A 32-bit address; address arithmetic is modulo 2^32 (R4 `ALEN`, R51). -/
abbrev Addr := BitVec 32

/-- A tainted value of `n` bytes: the value and one taint bit per byte; mask bit `i` covers value bits
`8i+7:8i` (R7, R20). It is immutable: every operation answers a new one. -/
structure TV (n : Nat) where
  val : BitVec (8 * n)
  t : BitVec n
  deriving DecidableEq, Repr

/-- The operand sizes B, W and L (R6). -/
inductive Size where
  | byte
  | word
  | long
  deriving DecidableEq, Repr

/-- `n(sz)`: the byte count of a size (R6). -/
abbrev Size.bytes : Size → Nat
  | .byte => 1
  | .word => 2
  | .long => 4

/-- A register number 0..7: the 3-bit register field of an instruction word (R9, R82, R83). -/
abbrev RegNo := Fin 8

end Sys2Proof
end

