-- ==== Sys2Proof/Config.lean ====
section
/-! DEFINITION. The parameters of 00_scope.md R4: the alternatives each one has, and the fixed constants. The value a
parameter with alternatives takes stands in Machine/Params.lean. -/

namespace Sys2Proof

/-- `TAINT_COMBINE` (R4, R159, 92 D4): how the taint masks of two ALU inputs make the result's. -/
inductive TaintCombine where
  /-- every byte of the result is tainted if any byte of an input is -/
  | smear
  /-- the masks are ORed lane by lane -/
  | lanewise
  deriving DecidableEq, Repr

/-- `CCR_IMM_TAINT` (R4, R169, 92 D16): the flag taints after an immediate-on-flag-byte instruction. -/
inductive CcrImmTaint where
  /-- a flag the immediate forces becomes untainted -/
  | forcedClears
  /-- no flag taint changes -/
  | keep
  deriving DecidableEq, Repr

/-- A cycle cost for each operand size. -/
structure SizeCost where
  byte : Nat
  word : Nat
  long : Nat
  deriving DecidableEq, Repr

/-- The two cycle parameters of kind "argument" (R4): `EA_CYCLES(mode, reg, size)`, any table (41_ea_resolver.md R138), and
`MOVEP_CYCLES(size)` (44_movep.md R190). -/
structure CycleTables where
  /-- by the EA field's mode, then its register -/
  ea : Vector (Vector SizeCost 8) 8
  movepWord : Nat
  movepLong : Nat
  deriving DecidableEq, Repr

/-- `SP_INDEX` (R4, R22): the address register that is the stack pointer. -/
def Config.spIndex : RegNo := 7

/-- `FLAG_MASK` (R4, 92 D15): the legal flag-bit positions of the flag byte. -/
def Config.flagMask : Word := 0x001F

end Sys2Proof
end

