-- ==== Sys2Proof/Machine/Params.lean ====
section
/-! DEFINITION. The values the model gives the parameters of 00_scope.md R4 that have alternatives, the fixed cycle
literals, the lookup in the cycle tables, and the default tables. -/

namespace Sys2Proof

/-- The cost of a size. -/
def SizeCost.forSize (c : SizeCost) : Size → Nat
  | .byte => c.byte
  | .word => c.word
  | .long => c.long

/-- `EA_CYCLES(mode, reg, size)` in a table. -/
def CycleTables.eaCost (t : CycleTables) (mode reg : RegNo) (sz : Size) : Nat := ((t.ea.get mode).get reg).forSize sz

end Sys2Proof

namespace Sys2Proof.Machine

/-- `TAINT_COMBINE = smear` (92 D4, log 8). -/
def taintCombine : TaintCombine := .smear

/-- `CCR_IMM_TAINT = forced_clears` (92 D16, log 8). -/
def ccrImmTaint : CcrImmTaint := .forcedClears

/-- `ALIGN_CHECK = true`: a conforming port refuses word and long operations at odd addresses (20 R55, log 8). -/
def alignCheck : Bool := true

/-- A row of R138's table: one cost for byte and word, one for long. -/
def rowCost (short long : Nat) : SizeCost := ⟨short, short, long⟩

/-- The default of `EA_CYCLES` for mode 111, by register (R138); 101, 110, 111 name no mode and cost nothing. -/
def defaultMode7 : Vector SizeCost 8 :=
  #v[rowCost 8 12, rowCost 12 16, rowCost 8 12, rowCost 10 14, rowCost 4 8, rowCost 0 0, rowCost 0 0, rowCost 0 0]

/-- The defaults of `EA_CYCLES` (R138) and of `MOVEP_CYCLES` (44_movep.md R190), supplied at reset (log 7). -/
def defaultCycles : CycleTables where
  ea := #v[.replicate 8 (rowCost 0 0), .replicate 8 (rowCost 0 0), .replicate 8 (rowCost 4 8), .replicate 8 (rowCost 4 8),
    .replicate 8 (rowCost 6 10), .replicate 8 (rowCost 8 12), .replicate 8 (rowCost 10 14), defaultMode7]
  movepWord := 16
  movepLong := 24

/-- `OR_BASE(register-dest, sz)` (43_or.md R180). -/
def orBaseToReg : Size → Nat
  | .byte => 4
  | .word => 4
  | .long => 6

/-- `OR_BASE(EA-dest, sz)` (43_or.md R180). -/
def orBaseToEa : Size → Nat
  | .byte => 8
  | .word => 8
  | .long => 12

/-- The fixed cost of the immediate-on-flag-byte family (45_ccr_immediate.md R200). -/
def ccrImmCycles : Nat := 8

end Sys2Proof.Machine
end

