-- ==== Sys2Proof/Machine/State.lean ====
section
/-! DEFINITION. The state of the block (10_state.md) and of the reference memory behind its port (20_memory.md R68),
the reasons a step can stop, and the state after reset. All of it is plain data. -/

namespace Sys2Proof.Machine

/-- The kind of a port operation, as `AddressingFault` records it (20_memory.md R56). -/
inductive AccessKind where
  | fetch
  | read
  | write
  deriving DecidableEq, Repr

/-- What a handler asked of an operand the resolver refuses (60_exceptions.md R212). -/
inductive OperandAccess where
  | read
  | write
  deriving DecidableEq, Repr

/-- One operation the block issues to the memory port: `readByte` .. `writeLong` by kind and byte count (20 R50). -/
structure PortOp where
  kind : AccessKind
  addr : Addr
  width : Nat
  deriving DecidableEq, Repr

/-- A run of addresses the port accepts. -/
structure Region where
  base : Nat
  size : Nat
  deriving DecidableEq, Repr

/-- The reference memory (20 R68) with its address map, the parameter `MEMMAP` (20 R62). `cells` lists (address, byte
and taint bit) with rising addresses; what an unlisted address reads as is `unlistedCell` (Machine/Ops.lean, log 6). -/
structure Memory where
  map : List Region
  cells : List (Nat × TV 1)
  deriving DecidableEq, Repr

/-- Everything the spec gives the machine. -/
structure State where
  /-- `D[0]`..`D[7]` (10_state.md R21) -/
  d : Vector (TV 4) 8
  /-- `A[0]`..`A[6]` (R22) -/
  a : Vector (TV 4) 7
  /-- the user stack pointer slot (R23) -/
  usp : TV 4
  /-- the supervisor stack pointer slot (R23) -/
  ssp : TV 4
  /-- the program counter (R29) -/
  pc : Addr
  /-- the status register (R26, R28) -/
  sr : BitVec 16
  /-- `FT`: the taints of C, V, Z, N, X in bits 0..4 (R27) -/
  ft : BitVec 5
  /-- set when a step's outcome was a fault, cleared by INIT (R32) -/
  halted : Bool
  /-- the memory behind the port (20_memory.md R68) -/
  mem : Memory
  /-- `EA_CYCLES` and `MOVEP_CYCLES`, supplied by the caller; no step changes them (00_scope.md R4, log 7) -/
  costs : CycleTables
  /-- the cycle count the last completed step returned: an output (40 R106, log 10) -/
  cycles : Nat
  /-- the port operations of the step, oldest first: an output (20 R59, log 10) -/
  ops : List PortOp
  deriving DecidableEq, Repr

/-- The three faults of 60_exceptions.md R210. Each ends the step with no successor state (R218); each is safe: the spec
itself ends the step there. -/
inductive Fault where
  /-- code 1; raised by the step when the dispatch table has no entry for the opcode word (R211); safe -/
  | unimplementedOpcode (w : Word)
  /-- code 2; raised by the resolver (R212); `access` is `none` when the resolution itself is refused (R142, log 12);
  no step can raise it (R139); safe -/
  | illegalOperandRequest (mode reg : RegNo) (access : Option OperandAccess)
  /-- code 3; raised by any port operation the port refuses (R213): the address, the width 1, 2 or 4 and the kind; safe -/
  | addressingFault (addr : Addr) (width : Nat) (kind : AccessKind)
  deriving DecidableEq, Repr

/-- Why a STEP request is turned away. -/
inductive Refusal where
  /-- an instruction without a meaning, by its mnemonic in the opcode table; raised by `exec` only, and by no arm of it
  now; safe -/
  | notModelled (mnemonic : String)
  /-- the block is halted: "every later STEP request is refused" (60_exceptions.md R218); raised by `step`; safe -/
  | halted
  deriving DecidableEq, Repr

/-- A register value the model supplies and nobody vouches for: 0 with every taint bit set (10_state.md R34,
92 D28; DESIGN CHOICE, log 1). -/
def unvouched : TV 4 := ⟨0, 15⟩

/-- The machine right after an INIT whose record the model names, since the spec gives no reset values (log 1, 2, 3, 5,
6), with the spec's default cycle tables (log 7). -/
def State.reset : State where
  d := Vector.replicate 8 unvouched
  a := Vector.replicate 7 unvouched
  usp := unvouched
  ssp := unvouched
  pc := 0
  sr := 0
  ft := 31
  halted := false
  mem := ⟨[⟨0, 4294967296⟩], []⟩
  costs := defaultCycles
  cycles := 0
  ops := []

end Sys2Proof.Machine
end

