-- ==== Sys2Proof/Machine/Tainted.lean ====
section
/-! DEFINITION. Operations on tainted values (00_scope.md R7, R8; 10_state.md R24, R25). -/

namespace Sys2Proof.TV

variable {n : Nat}

/-- `tainted(v)`: some byte of `v` is tainted (R7). -/
def tainted (v : TV n) : Bool := v.t != 0

/-- `clean(x, n)`: an untainted value (R7). -/
def clean (x : BitVec (8 * n)) : TV n := ⟨x, 0⟩

/-- `smear(b, n)`: all `n` mask bits, or none (R7). -/
def smear (b : Bool) (n : Nat) : BitVec n := if b then BitVec.allOnes n else 0

/-- The low `m` bytes with their taint bits (R9, R24). -/
def low (m : Nat) (v : TV n) : TV m := ⟨v.val.setWidth (8 * m), v.t.setWidth m⟩

/-- The value with its low `m` bytes and their taint bits replaced by `v`; the rest unchanged (R24). -/
def setLow {m : Nat} (slot : TV n) (v : TV m) : TV n where
  val := (slot.val >>> (8 * m)) <<< (8 * m) ||| v.val.setWidth (8 * n)
  t := (slot.t >>> m) <<< m ||| v.t.setWidth n

/-- Byte `i` (bits `8i+7:8i`) with its taint bit. -/
def lane (v : TV n) (i : Nat) : TV 1 := ⟨(v.val >>> (8 * i)).setWidth 8, (v.t >>> i).setWidth 1⟩

/-- `{hi, lo}`: one more byte above the most significant. -/
def push (hi : TV 1) (lo : TV n) : TV (n + 1) where
  val := (hi.val.setWidth (8 * (n + 1)) <<< (8 * n)) ||| lo.val.setWidth (8 * (n + 1))
  t := (hi.t.setWidth (n + 1) <<< n) ||| lo.t.setWidth (n + 1)

/-- `msb(v, n)`: the sign bit at the value's width (R8, 42_alu_and_flags.md R166). -/
def msb (v : TV n) : Bool := v.val.getLsbD (8 * n - 1)

/-- The signed interpretation `sext_32` that the signed accessors give (R8, R25). -/
def sext32 (v : TV n) : BitVec 32 := v.val.signExtend 32

end Sys2Proof.TV
end

