-- ==== Sys2Proof/Machine/Alu.lean ====
section
/-! DEFINITION. The ALU of 42_alu_and_flags.md R150 to R159. -/

namespace Sys2Proof.Machine

/-- The operation kinds with a meaning (R150 to R157). The shift/rotate family has none (R158). -/
inductive AluKind where
  | or
  | and
  | eor
  | move
  | add
  | sub
  | cmp
  deriving DecidableEq, Repr

/-- The taint mask of a combination under each value of `TAINT_COMBINE` (R159). -/
def combineTaintUnder (p : TaintCombine) {n : Nat} (src dst : TV n) : BitVec n :=
  match p with
  | .smear => TV.smear (src.tainted || dst.tainted) n
  | .lanewise => src.t ||| dst.t

/-- The taint mask of a combination (R159). -/
def combineTaint {n : Nat} (src dst : TV n) : BitVec n := combineTaintUnder taintCombine src dst

/-- `ALU(kind, src, dst)` (R150): value per kind (R151 to R157) modulo 2^(8n), taint by R159, but MOVE passes its source
through unchanged (R154). -/
def alu {n : Nat} (kind : AluKind) (src dst : TV n) : TV n :=
  match kind with
  | .or => ⟨src.val ||| dst.val, combineTaint src dst⟩
  | .and => ⟨src.val &&& dst.val, combineTaint src dst⟩
  | .eor => ⟨src.val ^^^ dst.val, combineTaint src dst⟩
  | .move => src
  | .add => ⟨dst.val + src.val, combineTaint src dst⟩
  | .sub => ⟨dst.val - src.val, combineTaint src dst⟩
  | .cmp => ⟨dst.val - src.val, combineTaint src dst⟩

end Sys2Proof.Machine
end

