-- ==== Sys2Proof/Syntax.lean ====
section
/-! DEFINITION. The thirteen instruction forms of 30_encoding.md R89 with every operand their words carry. -/

namespace Sys2Proof

/-- The index extension word (30_encoding.md R86). `ignored` is bits 10:8, which the block ignores: they are kept so
that no bit of an encoding is dropped. -/
structure IndexWord where
  /-- bit 15: the index register is an address register -/
  isAddr : Bool
  /-- bits 14:12 -/
  xr : RegNo
  /-- bit 11: the whole long of the index register, not its sign-extended low word -/
  whole : Bool
  /-- bits 10:8 -/
  ignored : BitVec 3
  /-- bits 7:0 -/
  d8 : BitVec 8
  deriving DecidableEq, Repr

/-- An effective-address operand: the twelve addressing modes of R85 with the extension words each consumes, and the
mode 111 register numbers that name no mode (R142). -/
inductive Ea where
  /-- `Dn`, mode 000 -/
  | dReg (r : RegNo)
  /-- `An`, mode 001 -/
  | aReg (r : RegNo)
  /-- `(An)`, mode 010 -/
  | ind (r : RegNo)
  /-- `(An)+`, mode 011 -/
  | postInc (r : RegNo)
  /-- `-(An)`, mode 100 -/
  | preDec (r : RegNo)
  /-- `d16(An)`, mode 101 -/
  | disp (r : RegNo) (d16 : BitVec 16)
  /-- `d8(An,Xn.s)`, mode 110 -/
  | index (r : RegNo) (x : IndexWord)
  /-- `addr.W`, mode 111 register 000 -/
  | absW (w : BitVec 16)
  /-- `addr.L`, mode 111 register 001: the two extension words, the first in bits 31:16 -/
  | absL (addr : BitVec 32)
  /-- `d16(PC)`, mode 111 register 010 -/
  | pcDisp (d16 : BitVec 16)
  /-- `d8(PC,Xn.s)`, mode 111 register 011 -/
  | pcIndex (x : IndexWord)
  /-- `#imm`, mode 111 register 100: one extension word (byte, word) in bits 15:0, or two (long), the first in
  bits 31:16 -/
  | imm (v : BitVec 32)
  /-- mode 111 register 101, 110, 111: no addressing mode (R142) -/
  | unnamed (r : RegNo)
  deriving DecidableEq, Repr

/-- One constructor per row of spec/opcode_table.json. Operands stand in the order source, destination (R93). -/
inductive Instr where
  /-- `OR.B <ea>,Dn` (43_or.md R181) -/
  | orBToReg (src : Ea) (dn : RegNo)
  /-- `OR.W <ea>,Dn` (R182) -/
  | orWToReg (src : Ea) (dn : RegNo)
  /-- `OR.L <ea>,Dn` (R183) -/
  | orLToReg (src : Ea) (dn : RegNo)
  /-- `OR.B Dn,<ea>` (R184) -/
  | orBToEa (dn : RegNo) (dst : Ea)
  /-- `OR.W Dn,<ea>` (R185) -/
  | orWToEa (dn : RegNo) (dst : Ea)
  /-- `OR.L Dn,<ea>` (R186) -/
  | orLToEa (dn : RegNo) (dst : Ea)
  /-- `MOVEP.W d16(Ay),Dx` (44_movep.md R191) -/
  | movepWToReg (d16 : BitVec 16) (ay dx : RegNo)
  /-- `MOVEP.L d16(Ay),Dx` (R192) -/
  | movepLToReg (d16 : BitVec 16) (ay dx : RegNo)
  /-- `MOVEP.W Dx,d16(Ay)` (R193) -/
  | movepWToMem (dx : RegNo) (d16 : BitVec 16) (ay : RegNo)
  /-- `MOVEP.L Dx,d16(Ay)` (R194) -/
  | movepLToMem (dx : RegNo) (d16 : BitVec 16) (ay : RegNo)
  /-- `ORI #imm,CCR` (45_ccr_immediate.md R201) -/
  | oriCcr (imm16 : BitVec 16)
  /-- `ANDI #imm,CCR` (R202) -/
  | andiCcr (imm16 : BitVec 16)
  /-- `EORI #imm,CCR` (R203) -/
  | eoriCcr (imm16 : BitVec 16)
  deriving DecidableEq, Repr

/-- The thirteen rows of the opcode map (30_encoding.md R89): what a populated dispatch-table entry names. -/
inductive Form where
  /-- rows 1 to 3, register-dest OR -/
  | orToReg (sz : Size)
  /-- rows 4 to 6, EA-dest OR -/
  | orToEa (sz : Size)
  /-- rows 7 and 8, byte transfer memory to register; `long` is bit 6 -/
  | movepToReg (long : Bool)
  /-- rows 9 and 10, byte transfer register to memory -/
  | movepToMem (long : Bool)
  /-- rows 11 to 13, the three immediate-on-flag-byte instructions -/
  | oriCcr
  | andiCcr
  | eoriCcr
  deriving DecidableEq, Repr

/-- The row an instruction belongs to. -/
def Instr.form : Instr → Form
  | .orBToReg _ _ => .orToReg .byte
  | .orWToReg _ _ => .orToReg .word
  | .orLToReg _ _ => .orToReg .long
  | .orBToEa _ _ => .orToEa .byte
  | .orWToEa _ _ => .orToEa .word
  | .orLToEa _ _ => .orToEa .long
  | .movepWToReg _ _ _ => .movepToReg false
  | .movepLToReg _ _ _ => .movepToReg true
  | .movepWToMem _ _ _ => .movepToMem false
  | .movepLToMem _ _ _ => .movepToMem true
  | .oriCcr _ => .oriCcr
  | .andiCcr _ => .andiCcr
  | .eoriCcr _ => .eoriCcr

end Sys2Proof
end

