-- ==== Sys2Proof/WellFormed.lean ====
section
/-! DEFINITION. Which terms of `Instr` an opcode word of the populated table can stand for: the EA legality of
30_encoding.md R89 (41_ea_resolver.md R137) and the width of an immediate (R87). -/

namespace Sys2Proof

/-- An immediate of byte or word size has one extension word, so nothing above bit 15 (R87); every other operand
fills its words. -/
def Ea.immFits (sz : Size) : Ea → Bool
  | .imm v => sz == .long || v.toNat < 65536
  | _ => true

/-- The eleven modes that may be the source of `OR <ea>,Dn` (R137; `An` is left out by conflict C2). -/
def Ea.isSource : Ea → Bool
  | .aReg _ => false
  | .unnamed _ => false
  | .dReg _ | .ind _ | .postInc _ | .preDec _ | .disp _ _ | .index _ _ => true
  | .absW _ | .absL _ | .pcDisp _ | .pcIndex _ | .imm _ => true

/-- The seven writable memory-referencing modes that may be the destination of `OR Dn,<ea>` (R137). -/
def Ea.isDest : Ea → Bool
  | .ind _ | .postInc _ | .preDec _ | .disp _ _ | .index _ _ | .absW _ | .absL _ => true
  | .dReg _ | .aReg _ | .pcDisp _ | .pcIndex _ | .imm _ | .unnamed _ => false

/-- The instruction is one that some populated opcode word and its extension words encode. -/
def Instr.wf : Instr → Bool
  | .orBToReg src _ => src.isSource && src.immFits .byte
  | .orWToReg src _ => src.isSource && src.immFits .word
  | .orLToReg src _ => src.isSource && src.immFits .long
  | .orBToEa _ dst | .orWToEa _ dst | .orLToEa _ dst => dst.isDest
  | .movepWToReg _ _ _ | .movepLToReg _ _ _ | .movepWToMem _ _ _ | .movepLToMem _ _ _ => true
  | .oriCcr _ | .andiCcr _ | .eoriCcr _ => true

end Sys2Proof
end

