-- ==== Sys2Proof/Decode.lean ====
section
/-! DEFINITION. The dispatch table and the decoder of 30_encoding.md R80 to R92, total on any bytes, and after them the
encoder, written from the same tables. -/

namespace Sys2Proof

/-! ### Fields -/

/-- The 3-bit register (or mode) field `w[lo+2:lo]`. -/
def field3 (w : Word) (lo : Nat) : RegNo :=
  ⟨(w.extractLsb' lo 3).toNat, (w.extractLsb' lo 3).isLt⟩

/-- A word from its two bytes, the first (lower address) in bits 15:8 (20_memory.md R52). -/
def wordOfBytes (hi lo : BitVec 8) : Word := hi ++ lo

/-- The two bytes of a word in ascending address order (R52). -/
def bytesOfWord (w : Word) : List (BitVec 8) := [w.extractLsb' 8 8, w.extractLsb' 0 8]

/-- `{hi, lo}` of two extension words, the first fetched in bits 31:16 (R87, R88). -/
def longOfWords (hi lo : Word) : BitVec 32 := hi ++ lo

/-! ### The dispatch table -/

/-- A row of R89: the form, and the `match` and `mask` its opcode words meet. -/
structure Row where
  form : Form
  pattern : Word
  mask : Word
  deriving DecidableEq, Repr

/-- The thirteen rows of R89. -/
def rows : List Row :=
  [⟨.orToReg .byte, 0x8000, 0xF1C0⟩, ⟨.orToReg .word, 0x8040, 0xF1C0⟩, ⟨.orToReg .long, 0x8080, 0xF1C0⟩,
   ⟨.orToEa .byte, 0x8100, 0xF1C0⟩, ⟨.orToEa .word, 0x8140, 0xF1C0⟩, ⟨.orToEa .long, 0x8180, 0xF1C0⟩] ++
  [⟨.movepToReg false, 0x0108, 0xF1F8⟩, ⟨.movepToReg true, 0x0148, 0xF1F8⟩,
   ⟨.movepToMem false, 0x0188, 0xF1F8⟩, ⟨.movepToMem true, 0x01C8, 0xF1F8⟩] ++
  [⟨.oriCcr, 0x003C, 0xFFFF⟩, ⟨.andiCcr, 0x023C, 0xFFFF⟩, ⟨.eoriCcr, 0x0A3C, 0xFFFF⟩]

/-- The EA constraint column of R89 on the fields `mode` and `reg`. -/
def Form.eaLegal (f : Form) (mode reg : RegNo) : Bool :=
  match f with
  | .orToReg _ => mode != 1 && !(mode == 7 && decide (5 ≤ reg.val))
  | .orToEa _ => (decide (2 ≤ mode.val) && decide (mode.val ≤ 6)) || (mode == 7 && (reg == 0 || reg == 1))
  | .movepToReg _ | .movepToMem _ => true
  | .oriCcr | .andiCcr | .eoriCcr => true

/-- `w` selects the row: `(w & mask) == match` and the EA constraint holds (R89). -/
def Row.selects (r : Row) (w : Word) : Bool :=
  (w &&& r.mask) == r.pattern && r.form.eaLegal (field3 w 3) (field3 w 0)

/-- The dispatch table, a total function of the opcode word: the form registered at `w`, or `none` (10_state.md R30,
40_step_and_dispatch.md R102, R107, R108). -/
def dispatchTable (w : Word) : Option Form := (rows.find? (·.selects w)).map (·.form)

/-- LOOKUP: the handler lookup of the disassembler interface reads the same table (40 R110). -/
def lookup (w : Word) : Option Form := dispatchTable w

/-! ### Lengths -/

/-- Column "ext" of R85: the extension words an EA field consumes. -/
def eaExtWords (sz : Size) (mode reg : RegNo) : Nat :=
  match mode.val, reg.val with
  | 5, _ | 6, _ => 1
  | 7, 0 | 7, 2 | 7, 3 => 1
  | 7, 1 => 2
  | 7, 4 => if sz = .long then 2 else 1
  | _, _ => 0

/-- The extension words that follow an opcode word: the opcode word alone decides (R80, R92). -/
def Form.extWords (f : Form) (w : Word) : Nat :=
  match f with
  | .orToReg sz | .orToEa sz => eaExtWords sz (field3 w 3) (field3 w 0)
  | .movepToReg _ | .movepToMem _ => 1
  | .oriCcr | .andiCcr | .eoriCcr => 1

/-! ### The decoder -/

/-- The index extension word's fields (R86). -/
def decodeIndex (x : Word) : IndexWord where
  isAddr := x.getLsbD 15
  xr := field3 x 12
  whole := x.getLsbD 11
  ignored := x.extractLsb' 8 3
  d8 := x.extractLsb' 0 8

/-- The EA operand that `mode`, `reg` and the extension words name (R85 to R88). -/
def decodeEa (sz : Size) (mode reg : RegNo) (x0 x1 : Word) : Ea :=
  match mode.val with
  | 0 => .dReg reg
  | 1 => .aReg reg
  | 2 => .ind reg
  | 3 => .postInc reg
  | 4 => .preDec reg
  | 5 => .disp reg x0
  | 6 => .index reg (decodeIndex x0)
  | _ =>
    match reg.val with
    | 0 => .absW x0
    | 1 => .absL (longOfWords x0 x1)
    | 2 => .pcDisp x0
    | 3 => .pcIndex (decodeIndex x0)
    | 4 => .imm (if sz = .long then longOfWords x0 x1 else x0.setWidth 32)
    | _ => .unnamed reg

/-- The fields of the form's opcode word `w` (R82 to R84) with its extension words `x0`, `x1`; a word the form does
not consume is not looked at. -/
def decodeForm (f : Form) (w x0 x1 : Word) : Instr :=
  match f with
  | .orToReg .byte => .orBToReg (decodeEa .byte (field3 w 3) (field3 w 0) x0 x1) (field3 w 9)
  | .orToReg .word => .orWToReg (decodeEa .word (field3 w 3) (field3 w 0) x0 x1) (field3 w 9)
  | .orToReg .long => .orLToReg (decodeEa .long (field3 w 3) (field3 w 0) x0 x1) (field3 w 9)
  | .orToEa .byte => .orBToEa (field3 w 9) (decodeEa .byte (field3 w 3) (field3 w 0) x0 x1)
  | .orToEa .word => .orWToEa (field3 w 9) (decodeEa .word (field3 w 3) (field3 w 0) x0 x1)
  | .orToEa .long => .orLToEa (field3 w 9) (decodeEa .long (field3 w 3) (field3 w 0) x0 x1)
  | .movepToReg false => .movepWToReg x0 (field3 w 0) (field3 w 9)
  | .movepToReg true => .movepLToReg x0 (field3 w 0) (field3 w 9)
  | .movepToMem false => .movepWToMem (field3 w 9) x0 (field3 w 0)
  | .movepToMem true => .movepLToMem (field3 w 9) x0 (field3 w 0)
  | .oriCcr => .oriCcr x0
  | .andiCcr => .andiCcr x0
  | .eoriCcr => .eoriCcr x0

/-- Why bytes are not an instruction: the opcode word is not populated (R91), or the bytes end inside the
instruction. -/
inductive DecodeError where
  | unimplementedOpcode (w : Word)
  | truncated
  deriving DecidableEq, Repr

/-- The instruction that a list of words begins with, and the words after it. -/
def decodeWords : List Word → Except DecodeError (Instr × List Word)
  | [] => .error .truncated
  | w :: xs =>
    match dispatchTable w with
    | none => .error (.unimplementedOpcode w)
    | some f =>
      if xs.length < f.extWords w then .error .truncated
      else .ok (decodeForm f w (xs.getD 0 0) (xs.getD 1 0), xs.drop (f.extWords w))

/-- The words of a list of bytes; an odd last byte is dropped (log 16). -/
def wordsOfBytes : List (BitVec 8) → List Word
  | hi :: lo :: rest => wordOfBytes hi lo :: wordsOfBytes rest
  | _ => []

/-- The decoder on bytes in ascending address order: the instruction and how many bytes it takes (R80). -/
def decode (bytes : List (BitVec 8)) : Except DecodeError (Instr × Nat) :=
  match decodeWords (wordsOfBytes bytes) with
  | .error e => .error e
  | .ok (i, rest) => .ok (i, 2 * ((wordsOfBytes bytes).length - rest.length))

/-! ### The encoder -/

/-- The EA field's `mode` (R85). -/
def Ea.mode : Ea → RegNo
  | .dReg _ => 0
  | .aReg _ => 1
  | .ind _ => 2
  | .postInc _ => 3
  | .preDec _ => 4
  | .disp _ _ => 5
  | .index _ _ => 6
  | .absW _ | .absL _ | .pcDisp _ | .pcIndex _ | .imm _ | .unnamed _ => 7

/-- The EA field's `reg` (R85). -/
def Ea.reg : Ea → RegNo
  | .dReg r | .aReg r | .ind r | .postInc r | .preDec r | .disp r _ | .index r _ => r
  | .absW _ => 0
  | .absL _ => 1
  | .pcDisp _ => 2
  | .pcIndex _ => 3
  | .imm _ => 4
  | .unnamed r => r

/-- A 3-bit field placed with its bit 0 at bit `lo`. -/
def placeField (r : RegNo) (lo : Nat) : Word := BitVec.ofNat 16 r.val <<< lo

/-- The index extension word (R86). -/
def encodeIndex (x : IndexWord) : Word :=
  BitVec.ofBool x.isAddr ++ BitVec.ofNat 3 x.xr.val ++ BitVec.ofBool x.whole ++ x.ignored ++ x.d8

/-- The two words of a 32-bit operand, bits 31:16 first (R87, R88). -/
def wordsOfLong (v : BitVec 32) : List Word := [v.extractLsb' 16 16, v.extractLsb' 0 16]

/-- The extension words of an EA operand (R85 to R88). -/
def Ea.extWords (sz : Size) : Ea → List Word
  | .dReg _ | .aReg _ | .ind _ | .postInc _ | .preDec _ | .unnamed _ => []
  | .disp _ d => [d]
  | .index _ x => [encodeIndex x]
  | .absW w => [w]
  | .absL a => wordsOfLong a
  | .pcDisp d => [d]
  | .pcIndex x => [encodeIndex x]
  | .imm v => if sz = .long then wordsOfLong v else [v.extractLsb' 0 16]

/-- The opcode word's fixed bits: column `match` of R89. -/
def Form.pattern : Form → Word
  | .orToReg .byte => 0x8000
  | .orToReg .word => 0x8040
  | .orToReg .long => 0x8080
  | .orToEa .byte => 0x8100
  | .orToEa .word => 0x8140
  | .orToEa .long => 0x8180
  | .movepToReg false => 0x0108
  | .movepToReg true => 0x0148
  | .movepToMem false => 0x0188
  | .movepToMem true => 0x01C8
  | .oriCcr => 0x003C
  | .andiCcr => 0x023C
  | .eoriCcr => 0x0A3C

/-- The opcode word of format F-OR (R82). -/
def orOpcode (f : Form) (dn : RegNo) (ea : Ea) : Word :=
  f.pattern ||| placeField dn 9 ||| placeField ea.mode 3 ||| placeField ea.reg 0

/-- The opcode word of format F-MOVEP (R83). -/
def movepOpcode (f : Form) (dx ay : RegNo) : Word :=
  f.pattern ||| placeField dx 9 ||| placeField ay 0

/-- The words of an instruction, the opcode word first. -/
def encode : Instr → List Word
  | .orBToReg src dn => orOpcode (.orToReg .byte) dn src :: src.extWords .byte
  | .orWToReg src dn => orOpcode (.orToReg .word) dn src :: src.extWords .word
  | .orLToReg src dn => orOpcode (.orToReg .long) dn src :: src.extWords .long
  | .orBToEa dn dst => orOpcode (.orToEa .byte) dn dst :: dst.extWords .byte
  | .orWToEa dn dst => orOpcode (.orToEa .word) dn dst :: dst.extWords .word
  | .orLToEa dn dst => orOpcode (.orToEa .long) dn dst :: dst.extWords .long
  | .movepWToReg d ay dx => [movepOpcode (.movepToReg false) dx ay, d]
  | .movepLToReg d ay dx => [movepOpcode (.movepToReg true) dx ay, d]
  | .movepWToMem dx d ay => [movepOpcode (.movepToMem false) dx ay, d]
  | .movepLToMem dx d ay => [movepOpcode (.movepToMem true) dx ay, d]
  | .oriCcr imm => [Form.oriCcr.pattern, imm]
  | .andiCcr imm => [Form.andiCcr.pattern, imm]
  | .eoriCcr imm => [Form.eoriCcr.pattern, imm]

/-- The bytes of an instruction in ascending address order (20_memory.md R52). -/
def encodeBytes (i : Instr) : List (BitVec 8) := (encode i).flatMap bytesOfWord

/-! ### The opcode table's words -/

/-- The `k`-th 16-bit word of a number whose bit 0 is the least significant bit of the first word. -/
def tableWord (w k : Nat) : Word := BitVec.ofNat 16 (w / 65536 ^ k)

/-- The instruction that the decoder reads from an opcode-table row's bits `w` (`nbits` of them; the bits above are 0,
up to the longest instruction of three words), laid out as the hardware stores them. -/
def decodeTableWord (nbits w : Nat) : Option Instr :=
  let v := w % 2 ^ nbits
  match decode (bytesOfWord (tableWord v 0) ++ bytesOfWord (tableWord v 1) ++ bytesOfWord (tableWord v 2)) with
  | .ok (i, _) => some i
  | .error _ => none

end Sys2Proof
end

