-- ==== Sys2Proof/Machine/Ops.lean ====
section
/-! DEFINITION. The named operations over memory and registers: the reference memory behind the port (20_memory.md), the
register file (10_state.md), the fetch (00_scope.md R10), INIT (70 R230), INTROSPECT (10 R33) and the delivery of a fault
(60_exceptions.md R216, R218). -/

namespace Sys2Proof.Machine

/-! ### The reference memory -/

/-- What a mapped cell that nothing has loaded or written reads as: 0x00 with its taint bit set (DESIGN CHOICE, log 6). -/
def unlistedCell : TV 1 := ⟨0, 1⟩

/-- The cell listed for an address, or the unlisted one. -/
def lookupCell : List (Nat × TV 1) → Nat → TV 1
  | [], _ => unlistedCell
  | (b, w) :: rest, a => if a = b then w else lookupCell rest a

/-- Set one cell, keeping the canonical form: addresses rising, no entry that an unlisted address would equal. -/
def putCell (a : Nat) (v : TV 1) : List (Nat × TV 1) → List (Nat × TV 1)
  | [] => if v = unlistedCell then [] else [(a, v)]
  | (b, w) :: rest =>
    if a < b then (if v = unlistedCell then (b, w) :: rest else (a, v) :: (b, w) :: rest)
    else if a = b then (if v = unlistedCell then rest else (a, v) :: rest)
    else (b, w) :: putCell a v rest

/-- An address of the port's map (20 R62). -/
def Memory.mapped (m : Memory) (a : Nat) : Bool := m.map.any fun r => decide (r.base ≤ a ∧ a < r.base + r.size)

/-- The cell at an address. -/
def Memory.cell (m : Memory) (a : Addr) : TV 1 := lookupCell m.cells a.toNat

/-- Write the cell at an address. -/
def Memory.setCell (m : Memory) (a : Addr) (v : TV 1) : Memory := { m with cells := putCell a.toNat v m.cells }

/-- The `n` cells from `a` are all mapped; the sums wrap modulo 2^32 (R68). -/
def Memory.allMapped (m : Memory) (a : Addr) : Nat → Bool
  | 0 => true
  | n + 1 => m.mapped a.toNat && m.allMapped (a + 1) n

/-- The port accepts an operation of `n` bytes at `a`: every cell mapped, and the address even unless one byte is
asked for (R55, R68). -/
def Memory.accepts (m : Memory) (a : Addr) (n : Nat) : Bool :=
  (n == 1 || !alignCheck || !a.getLsbD 0) && m.allMapped a n

/-- The `n` bytes from `a`, big-endian, each with its own taint bit (R52, R53). -/
def Memory.loadBytes (m : Memory) (a : Addr) : (n : Nat) → TV n
  | 0 => ⟨0, 0⟩
  | n + 1 => (m.cell a).push (m.loadBytes (a + 1) n)

/-- Store the low `k` bytes of `v` from `a`, big-endian, each with its own taint bit (R52, R54). -/
def Memory.storeBytes {n : Nat} (m : Memory) (a : Addr) (v : TV n) : Nat → Memory
  | 0 => m
  | k + 1 => (m.setCell a (v.lane k)).storeBytes (a + 1) v k

/-- The regions of a map are nonempty, disjoint, not adjacent, rising, and inside the 32-bit space. -/
abbrev Memory.mapWf (m : Memory) : Prop :=
  m.map.Pairwise (fun r q => r.base + r.size < q.base) ∧ ∀ r ∈ m.map, 0 < r.size ∧ r.base + r.size ≤ 2 ^ 32

/-- The canonical form: addresses strictly rising, every listed address below 2^32 and mapped, no entry equal to what
an unlisted address reads as. -/
abbrev Memory.wf (m : Memory) : Prop :=
  m.mapWf ∧ m.cells.Pairwise (fun c e => c.1 < e.1) ∧
    ∀ c ∈ m.cells, c.1 < 2 ^ 32 ∧ m.mapped c.1 = true ∧ c.2 ≠ unlistedCell

/-! ### The port operations -/

/-- Record a port operation of the step (20 R59, log 10). -/
def State.logOp (s : State) (kind : AccessKind) (a : Addr) (n : Nat) : State :=
  { s with ops := s.ops ++ [⟨kind, a, n⟩] }

/-- `MemRead(addr, n)`: one read of the port; `kind` tells a fetch from an operand read (00_scope.md R10, 20 R56). -/
def State.memRead (s : State) (kind : AccessKind) (a : Addr) (n : Nat) : Except Fault (TV n × State) :=
  if s.mem.accepts a n then .ok (s.mem.loadBytes a n, s.logOp kind a n)
  else .error (.addressingFault a n kind)

/-- `MemWrite(addr, n, v)`: one write of the port; a refused write changes no cell (00_scope.md R10, 20 R56, R68). -/
def State.memWrite {n : Nat} (s : State) (a : Addr) (v : TV n) : Except Fault State :=
  if s.mem.accepts a n then .ok { s.logOp .write a n with mem := s.mem.storeBytes a v n }
  else .error (.addressingFault a n .write)

/-- `Fetch16()`: the word at `pc`, its taint discarded; `pc` advances by 2 (00_scope.md R10, 20 R58). -/
def State.fetch16 (s : State) : Except Fault (Word × State) :=
  match s.memRead .fetch s.pc 2 with
  | .error f => .error f
  | .ok (w, s') => .ok (w.val, { s' with pc := s.pc + 2 })

/-! ### Registers -/

/-- `D[r].sz` of `n` bytes (10 R24). -/
def State.readD (s : State) (r : RegNo) (n : Nat) : TV n := (s.d.get r).low n

/-- `D[r].sz <- v` (10 R24). -/
def State.writeD {n : Nat} (s : State) (r : RegNo) (v : TV n) : State :=
  { s with d := s.d.set r.val ((s.d.get r).setLow v) r.isLt }

/-- `SR[13]`, the supervisor bit (10 R26). -/
def State.supervisor (s : State) : Bool := s.sr.getLsbD 13

/-- The whole slot `A[r]`; `A[7]` is `SSP` in supervisor mode and `USP` in user mode (10 R22, R23). -/
def State.getA (s : State) (r : RegNo) : TV 4 :=
  if h : r.val < 7 then s.a[r.val] else if s.supervisor then s.ssp else s.usp

/-- `A[r].L <- v`, of the active stack pointer slot for `A[7]` (10 R22, R23). -/
def State.setA (s : State) (r : RegNo) (v : TV 4) : State :=
  if h : r.val < 7 then { s with a := s.a.set r.val v } else if s.supervisor then { s with ssp := v } else { s with usp := v }

/-- Record the cycle count the step returns (40 R106). -/
def State.setCycles (s : State) (n : Nat) : State := { s with cycles := n }

/-! ### The status register -/

/-- The flag positions 0..4 in `SR[4:0]` and in `FT` (10 R26, R27). -/
def flagBits (x n z v c : Bool) : BitVec 5 :=
  BitVec.ofBool x ++ BitVec.ofBool n ++ BitVec.ofBool z ++ BitVec.ofBool v ++ BitVec.ofBool c

/-- `SR[4:0]`. -/
def State.flags (s : State) : BitVec 5 := s.sr.extractLsb' 0 5

/-- The flags C, V, Z, N, X (00_scope.md R9). -/
def State.flagC (s : State) : Bool := s.sr.getLsbD 0
def State.flagV (s : State) : Bool := s.sr.getLsbD 1
def State.flagZ (s : State) : Bool := s.sr.getLsbD 2
def State.flagN (s : State) : Bool := s.sr.getLsbD 3
def State.flagX (s : State) : Bool := s.sr.getLsbD 4

/-! ### INIT -/

/-- The record `INIT` that the caller supplies (10 R34). -/
structure Init where
  d : Vector (TV 4) 8
  a : Vector (TV 4) 7
  usp : TV 4
  ssp : TV 4
  pc : Addr
  sr : BitVec 16
  ft : BitVec 5
  deriving DecidableEq, Repr

/-- INIT, at the first start or after a fault: every register loaded from the record, `SR[7:5]` cleared, the latch `halted`
cleared; the memory `m` behind the port is not touched (70 R230). `c` are the cycle tables, arguments of the instance and
no part of the record (00_scope.md R4, log 7). The model's two output fields are emptied. -/
def init (r : Init) (c : CycleTables) (m : Memory) : State where
  d := r.d
  a := r.a
  usp := r.usp
  ssp := r.ssp
  pc := r.pc
  sr := r.sr &&& 0xFF1F
  ft := r.ft
  halted := false
  mem := m
  costs := c
  cycles := 0
  ops := []

/-- The latch set, as it is in the block after a step whose outcome was a fault (10 R32, 60 R218, log 11). -/
def State.halt (s : State) : State := { s with halted := true }

/-! ### INTROSPECT -/

/-- The accessors of 10 R33: full slots, `A[7]` the active stack pointer, none changes state. -/
def introspectD (s : State) (r : RegNo) : TV 4 := s.d.get r
def introspectA (s : State) (r : RegNo) : TV 4 := s.getA r

/-- `pc` as a tainted value: never tainted (10 R29, R33). -/
def introspectPc (s : State) : TV 4 := .clean s.pc

/-- The flag byte, tainted if any flag is (10 R33, 92 D25). -/
def introspectFlagByte (s : State) : TV 1 := ⟨s.sr.extractLsb' 0 8, BitVec.ofBool (s.ft != 0)⟩

/-- Flag `i` (0..4 for C, V, Z, N, X) with its own taint (10 R33). -/
def introspectFlag (s : State) (i : Fin 5) : Bool × Bool := (s.sr.getLsbD i.val, s.ft.getLsbD i.val)

/-- `SR[15:8]`, untainted (10 R28, R33). -/
def introspectSrHigh (s : State) : TV 1 := .clean (s.sr.extractLsb' 8 8)

/-! ### Faults -/

/-- The cause code of a fault (60_exceptions.md R210). -/
def Fault.code : Fault → Nat
  | .unimplementedOpcode _ => 1
  | .illegalOperandRequest _ _ _ => 2
  | .addressingFault _ _ _ => 3

/-- Delivery of a fault, shared by every meaning: it is the step's outcome, with no vector, no saved register, no mode
change and no successor state (60 R216, R218). The way back is `init` (R217). -/
def deliver : Except Fault State → Host.Outcome State Fault Refusal
  | .ok s => .next s
  | .error f => .fault f

end Sys2Proof.Machine
end

