-- ==== Sys2Proof/Machine/Flags.lean ====
section
/-! DEFINITION. The flag computation unit of 42_alu_and_flags.md R160 to R169. -/

namespace Sys2Proof.Machine

/-- A flag's new value and its new taint (10_state.md R27). -/
structure FlagVal where
  val : Bool
  taint : Bool
  deriving DecidableEq, Repr

/-- `FlagUpdate` (R160): what a kind makes of the five flags; `none` leaves X unaffected, value and taint. -/
structure FlagUpdate where
  c : FlagVal
  v : FlagVal
  z : FlagVal
  n : FlagVal
  x : Option FlagVal
  deriving DecidableEq, Repr

/-- Z and N of a result, with taint `tc` (R161 to R164, R166). -/
def zeroFlag {n : Nat} (res : TV n) (tc : Bool) : FlagVal := ⟨res.val == 0, tc⟩
def negFlag {n : Nat} (res : TV n) (tc : Bool) : FlagVal := ⟨res.msb, tc⟩

/-- The logical kinds: C and V forced to 0 and untainted, X unaffected (R161, R167). -/
def logicalFlags {n : Nat} (tc : Bool) (res : TV n) : FlagUpdate :=
  ⟨⟨false, false⟩, ⟨false, false⟩, zeroFlag res tc, negFlag res tc, none⟩

/-- Kind ADD's carry and overflow from the sign bits (R162). -/
def addCarry (sm dm rm : Bool) : Bool := (sm && dm) || (!rm && dm) || (sm && !rm)
def addOverflow (sm dm rm : Bool) : Bool := (sm && dm && !rm) || (!sm && !dm && rm)

/-- Kind SUB's borrow and overflow from the sign bits (R163). -/
def subCarry (sm dm rm : Bool) : Bool := (sm && !dm) || (rm && !dm) || (sm && rm)
def subOverflow (sm dm rm : Bool) : Bool := (!sm && dm && !rm) || (sm && !dm && rm)

/-- `computeFlags(kind, src, dst, res, n)` (R160): the sign bit is the width's (R166); a computed flag takes the taint
of both operands (R165), for MOVE of the source alone (R161). -/
def computeFlags {n : Nat} (kind : AluKind) (src dst res : TV n) : FlagUpdate :=
  let tc := src.tainted || dst.tainted
  match kind with
  | .or | .and | .eor => logicalFlags tc res
  | .move => logicalFlags src.tainted res
  | .add =>
    let c : FlagVal := ⟨addCarry src.msb dst.msb res.msb, tc⟩
    ⟨c, ⟨addOverflow src.msb dst.msb res.msb, tc⟩, zeroFlag res tc, negFlag res tc, some c⟩
  | .sub =>
    let c : FlagVal := ⟨subCarry src.msb dst.msb res.msb, tc⟩
    ⟨c, ⟨subOverflow src.msb dst.msb res.msb, tc⟩, zeroFlag res tc, negFlag res tc, some c⟩
  | .cmp =>
    ⟨⟨subCarry src.msb dst.msb res.msb, tc⟩, ⟨subOverflow src.msb dst.msb res.msb, tc⟩, zeroFlag res tc,
      negFlag res tc, none⟩

/-- Write a flag update into `SR[4:0]` and `FT`; `SR[15:5]` is never touched (R160). -/
def State.applyFlags (s : State) (u : FlagUpdate) : State :=
  let x := u.x.getD ⟨s.flagX, s.ft.getLsbD 4⟩
  { s with
    sr := (s.sr &&& 0xFFE0) ||| (flagBits x.val u.n.val u.z.val u.v.val u.c.val).setWidth 16
    ft := flagBits x.taint u.n.taint u.z.taint u.v.taint u.c.taint }

/-- The operators of the flag-byte write path (R169). -/
inductive CcrOp where
  | or
  | and
  | eor
  deriving DecidableEq, Repr

/-- The five new flags: the operator bit by bit (R169). -/
def CcrOp.value (op : CcrOp) (old imm : BitVec 5) : BitVec 5 :=
  match op with
  | .or => old ||| imm
  | .and => old &&& imm
  | .eor => old ^^^ imm

/-- The five new flag taints under each value of `CCR_IMM_TAINT` (R169): `forced_clears` makes a flag that the immediate
forces untainted. -/
def CcrOp.taintUnder (p : CcrImmTaint) (op : CcrOp) (old imm : BitVec 5) : BitVec 5 :=
  match p with
  | .keep => old
  | .forcedClears =>
    match op with
    | .or => old &&& ~~~imm
    | .and => old &&& imm
    | .eor => old

/-- The five new flag taints (R169). -/
def CcrOp.taint (op : CcrOp) (old imm : BitVec 5) : BitVec 5 := op.taintUnder ccrImmTaint old imm

/-- `FlagByteWrite(op, imm)` (R169): `SR[4:0]` and `FT` by the operator, `SR[7:5]` cleared, `SR[15:8]` unchanged. -/
def State.flagByteWrite (s : State) (op : CcrOp) (imm : BitVec 5) : State :=
  { s with
    sr := (s.sr &&& 0xFF00) ||| (op.value s.flags imm).setWidth 16
    ft := op.taint s.ft imm }

end Sys2Proof.Machine
end

