-- ==== Sys2Proof/Machine/CcrImm.lean ====
section
/-! DEFINITION. The immediate-logical-on-status family (45_ccr_immediate.md R200 to R204). -/

namespace Sys2Proof.Machine

/-- The common rule (R200): the immediate masked with `FLAG_MASK`, the flag-byte write path, 8 cycles; nothing can
fault once the two words are fetched. -/
def ccrImm (op : CcrOp) (imm16 : BitVec 16) (s : State) : Except Fault State :=
  .ok ((s.flagByteWrite op ((imm16 &&& Config.flagMask).setWidth 5)).setCycles ccrImmCycles)

/-- `ORI #imm,CCR` (R201). -/
def execOriCcr (imm16 : BitVec 16) (s : State) : Host.Outcome State Fault Refusal := deliver (ccrImm .or imm16 s)

/-- `ANDI #imm,CCR` (R202). -/
def execAndiCcr (imm16 : BitVec 16) (s : State) : Host.Outcome State Fault Refusal := deliver (ccrImm .and imm16 s)

/-- `EORI #imm,CCR` (R203). -/
def execEoriCcr (imm16 : BitVec 16) (s : State) : Host.Outcome State Fault Refusal := deliver (ccrImm .eor imm16 s)

end Sys2Proof.Machine
end

