-- ==== Sys2Proof/Machine/Movep.lean ====
section
/-! DEFINITION. The register/memory byte-lane transfer family (44_movep.md R190 to R195). -/

namespace Sys2Proof.Machine

/-- `base`: `A[ay]` plus the sign-extended displacement, modulo 2^32 (R190). -/
def movepBase (s : State) (ay : RegNo) (d16 : BitVec 16) : Addr := (s.getA ay).val + d16.signExtend 32

/-- Read `k` bytes at `a`, `a+2`, ... in ascending order, the first into the most significant lane, each lane with its own
taint bit (R190). -/
def readLanes (s : State) (a : Addr) : (k : Nat) → Except Fault (TV k × State)
  | 0 => .ok (⟨0, 0⟩, s)
  | k + 1 => do
    let (hi, s) ← s.memRead .read a 1
    let (lo, s) ← readLanes s (a + 2) k
    return (hi.push lo, s)

/-- Write the low `k` bytes of `v` at `a`, `a+2`, ... in ascending order, the most significant first, each lane with its
own taint bit (R190). -/
def writeLanes {n : Nat} (s : State) (a : Addr) (v : TV n) : Nat → Except Fault State
  | 0 => .ok s
  | k + 1 => do
    let s ← s.memWrite a (v.lane k)
    writeLanes s (a + 2) v k

/-- Memory to register, `k` bytes in `cyc` cycles (`MOVEP_CYCLES` of the size, from the block's tables): the register is
written after all the reads; no flag changes (R190 to R192). -/
def movepToReg (k : Nat) (cyc : Nat) (d16 : BitVec 16) (ay dx : RegNo) (s : State) : Except Fault State := do
  let (v, s) ← readLanes s (movepBase s ay d16) k
  return (s.writeD dx v).setCycles cyc

/-- Register to memory, `k` bytes in `cyc` cycles; no flag changes (R190, R193, R194). -/
def movepToMem (k : Nat) (cyc : Nat) (dx : RegNo) (d16 : BitVec 16) (ay : RegNo) (s : State) : Except Fault State := do
  let s ← writeLanes s (movepBase s ay d16) (s.readD dx k) k
  return s.setCycles cyc

/-- `MOVEP.W d16(Ay),Dx` (R191). -/
def execMovepWToReg (d16 : BitVec 16) (ay dx : RegNo) (s : State) : Host.Outcome State Fault Refusal :=
  deliver (movepToReg 2 s.costs.movepWord d16 ay dx s)

/-- `MOVEP.L d16(Ay),Dx` (R192). -/
def execMovepLToReg (d16 : BitVec 16) (ay dx : RegNo) (s : State) : Host.Outcome State Fault Refusal :=
  deliver (movepToReg 4 s.costs.movepLong d16 ay dx s)

/-- `MOVEP.W Dx,d16(Ay)` (R193). -/
def execMovepWToMem (dx : RegNo) (d16 : BitVec 16) (ay : RegNo) (s : State) : Host.Outcome State Fault Refusal :=
  deliver (movepToMem 2 s.costs.movepWord dx d16 ay s)

/-- `MOVEP.L Dx,d16(Ay)` (R194). -/
def execMovepLToMem (dx : RegNo) (d16 : BitVec 16) (ay : RegNo) (s : State) : Host.Outcome State Fault Refusal :=
  deliver (movepToMem 4 s.costs.movepLong dx d16 ay s)

end Sys2Proof.Machine
end

