-- ==== Sys2Proof/Machine/Operands.lean ====
section
/-! DEFINITION. The effective-address resolver of 41_ea_resolver.md: twelve addressing modes, resolved exactly once, and
the reading and writing of a resolved operand. -/

namespace Sys2Proof.Machine

/-- `o.kind` (R120). -/
inductive OperandKind (n : Nat) where
  | dReg (r : RegNo)
  | aReg (r : RegNo)
  | mem (addr : Addr)
  | imm (v : TV n)
  deriving DecidableEq, Repr

/-- A resolved operand of `n` bytes (R120): its kind, the extra cycles its addressing mode costs, and the EA field it came
from (what a refusal reports, R212). -/
structure Operand (n : Nat) where
  mode : RegNo
  reg : RegNo
  kind : OperandKind n
  extra : Nat
  deriving DecidableEq, Repr

/-- `step(size, reg)`: the byte count, but 2 for a byte through the stack pointer (R133). -/
def stepSize (sz : Size) (r : RegNo) : Addr :=
  if sz = .byte ∧ r = Config.spIndex then 2 else BitVec.ofNat 32 sz.bytes

/-- `index + disp` of the index extension word (R134); the index register's taint does not enter (R140). -/
def indexOffset (s : State) (x : IndexWord) : Addr :=
  let xn := if x.isAddr then s.getA x.xr else s.d.get x.xr
  (if x.whole then xn.val else (xn.low 2).sext32) + x.d8.signExtend 32

/-- The address of the one extension word of a PC-relative mode, the base of R130 and R131: `pc` when that word is
fetched. Here all the words of the instruction have been fetched, so it is 2 below `pc` (DEDUCED, log 9). -/
def pcBase (s : State) : Addr := s.pc - 2

/-- The address a memory mode names (R123 to R131); `none` for the modes that name no memory location. -/
def eaAddress (ea : Ea) (sz : Size) (s : State) : Option Addr :=
  match ea with
  | .ind r => some (s.getA r).val
  | .postInc r => some (s.getA r).val
  | .preDec r => some ((s.getA r).val - stepSize sz r)
  | .disp r d => some ((s.getA r).val + d.signExtend 32)
  | .index r x => some ((s.getA r).val + indexOffset s x)
  | .absW w => some (w.signExtend 32)
  | .absL a => some a
  | .pcDisp d => some (pcBase s + d.signExtend 32)
  | .pcIndex x => some (pcBase s + indexOffset s x)
  | .dReg _ | .aReg _ | .imm _ | .unnamed _ => none

/-- The register side effect of a resolution: the postincrement and predecrement modes step `A[r]` once and smear its
taint (R124, R125, R135). -/
def eaUpdate (ea : Ea) (sz : Size) (s : State) : State :=
  match ea with
  | .postInc r => s.setA r ⟨(s.getA r).val + stepSize sz r, TV.smear (s.getA r).tainted 4⟩
  | .preDec r => s.setA r ⟨(s.getA r).val - stepSize sz r, TV.smear (s.getA r).tainted 4⟩
  | .dReg _ | .aReg _ | .ind _ | .disp _ _ | .index _ _ => s
  | .absW _ | .absL _ | .pcDisp _ | .pcIndex _ | .imm _ | .unnamed _ => s

/-- What a mode names (R121 to R132); mode 111 with register 101, 110, 111 is refused at resolution (R142). An
immediate is the low `n` bytes of its extension words, untainted (R132). -/
def eaKind (ea : Ea) (sz : Size) (s : State) : Except Fault (OperandKind sz.bytes) :=
  match ea with
  | .dReg r => .ok (.dReg r)
  | .aReg r => .ok (.aReg r)
  | .imm v => .ok (.imm (TV.clean (v.setWidth _)))
  | .unnamed r => .error (.illegalOperandRequest 7 r none)
  | .ind _ | .postInc _ | .preDec _ | .disp _ _ | .index _ _ | .absW _ | .absL _ | .pcDisp _ | .pcIndex _ =>
    .ok (.mem ((eaAddress ea sz s).getD 0))

/-- `EA_CYCLES(mode, reg, size)` of the table supplied to this block (R138, log 7). -/
def State.eaCycles (s : State) (ea : Ea) (sz : Size) : Nat := s.costs.eaCost ea.mode ea.reg sz

/-- `Resolve(mode, reg, sz)`: the operand and the state with the addressing mode's register side effect; no data access
(R120). It reports the mode's extra cycles (R138). -/
def resolve (ea : Ea) (sz : Size) (s : State) : Except Fault (Operand sz.bytes × State) :=
  match eaKind ea sz s with
  | .error f => .error f
  | .ok k => .ok (⟨ea.mode, ea.reg, k, s.eaCycles ea sz⟩, eaUpdate ea sz s)

/-- `o.read()` (R136): at most one port read; an address register has no byte form. -/
def Operand.read {n : Nat} (o : Operand n) (s : State) : Except Fault (TV n × State) :=
  match o.kind with
  | .dReg r => .ok (s.readD r n, s)
  | .aReg r => if n = 1 then .error (.illegalOperandRequest o.mode o.reg (some .read)) else .ok ((s.getA r).low n, s)
  | .mem a => s.memRead .read a n
  | .imm v => .ok (v, s)

/-- The EA field names a PC-relative mode, whose operand cannot be written (R137). -/
def isPcRelative (mode reg : RegNo) : Bool := mode == 7 && (reg == 2 || reg == 3)

/-- `o.write(v)` (R136, R137): at most one port write; an immediate, a PC-relative operand and an address register refuse
it. -/
def Operand.write {n : Nat} (o : Operand n) (v : TV n) (s : State) : Except Fault State :=
  match o.kind with
  | .dReg r => .ok (s.writeD r v)
  | .mem a =>
    if isPcRelative o.mode o.reg then .error (.illegalOperandRequest o.mode o.reg (some .write)) else s.memWrite a v
  | .aReg _ | .imm _ => .error (.illegalOperandRequest o.mode o.reg (some .write))

end Sys2Proof.Machine
end

