-- ==== Sys2Proof/Machine/Or.lean ====
section
/-! DEFINITION. The logical-OR family (43_or.md R180 to R187). -/

namespace Sys2Proof.Machine

/-- The register-dest shape (R180), statement by statement: resolve the source once, read it, combine with `D[dn].sz`,
write back, flags, cycles. -/
def orToReg (sz : Size) (src : Ea) (dn : RegNo) (s : State) : Except Fault State := do
  let (o, s) ← resolve src sz s
  let (x, s) ← o.read s
  let y := s.readD dn sz.bytes
  let r := alu .or x y
  return ((s.writeD dn r).applyFlags (computeFlags .or x y r)).setCycles (orBaseToReg sz + o.extra)

/-- The EA-dest shape (R180): read `D[dn].sz`, resolve the destination once, read and write through the one resolved
operand, flags, cycles. -/
def orToEa (sz : Size) (dn : RegNo) (dst : Ea) (s : State) : Except Fault State := do
  let x := s.readD dn sz.bytes
  let (o, s) ← resolve dst sz s
  let (y, s) ← o.read s
  let r := alu .or x y
  let s ← o.write r s
  return (s.applyFlags (computeFlags .or x y r)).setCycles (orBaseToEa sz + o.extra)

/-- `OR.B <ea>,Dn` (R181). -/
def execOrBToReg (src : Ea) (dn : RegNo) (s : State) : Host.Outcome State Fault Refusal := deliver (orToReg .byte src dn s)

/-- `OR.W <ea>,Dn` (R182). -/
def execOrWToReg (src : Ea) (dn : RegNo) (s : State) : Host.Outcome State Fault Refusal := deliver (orToReg .word src dn s)

/-- `OR.L <ea>,Dn` (R183). -/
def execOrLToReg (src : Ea) (dn : RegNo) (s : State) : Host.Outcome State Fault Refusal := deliver (orToReg .long src dn s)

/-- `OR.B Dn,<ea>` (R184). -/
def execOrBToEa (dn : RegNo) (dst : Ea) (s : State) : Host.Outcome State Fault Refusal := deliver (orToEa .byte dn dst s)

/-- `OR.W Dn,<ea>` (R185). -/
def execOrWToEa (dn : RegNo) (dst : Ea) (s : State) : Host.Outcome State Fault Refusal := deliver (orToEa .word dn dst s)

/-- `OR.L Dn,<ea>` (R186). -/
def execOrLToEa (dn : RegNo) (dst : Ea) (s : State) : Host.Outcome State Fault Refusal := deliver (orToEa .long dn dst s)

end Sys2Proof.Machine
end

