-- ==== Sys2Proof/Machine/Dispatch.lean ====
section
/-! DEFINITION. Handler execute (40_step_and_dispatch.md R104): one arm per constructor of `Instr`. -/

namespace Sys2Proof.Machine

def exec (i : Instr) (s : State) : Host.Outcome State Fault Refusal :=
  match i with
  | .orBToReg src dn => Sys2Proof.Machine.execOrBToReg src dn s
  | .orWToReg src dn => Sys2Proof.Machine.execOrWToReg src dn s
  | .orLToReg src dn => Sys2Proof.Machine.execOrLToReg src dn s
  | .orBToEa dn dst => Sys2Proof.Machine.execOrBToEa dn dst s
  | .orWToEa dn dst => Sys2Proof.Machine.execOrWToEa dn dst s
  | .orLToEa dn dst => Sys2Proof.Machine.execOrLToEa dn dst s
  | .movepWToReg d16 ay dx => Sys2Proof.Machine.execMovepWToReg d16 ay dx s
  | .movepLToReg d16 ay dx => Sys2Proof.Machine.execMovepLToReg d16 ay dx s
  | .movepWToMem dx d16 ay => Sys2Proof.Machine.execMovepWToMem dx d16 ay s
  | .movepLToMem dx d16 ay => Sys2Proof.Machine.execMovepLToMem dx d16 ay s
  | .oriCcr imm16 => Sys2Proof.Machine.execOriCcr imm16 s
  | .andiCcr imm16 => Sys2Proof.Machine.execAndiCcr imm16 s
  | .eoriCcr imm16 => Sys2Proof.Machine.execEoriCcr imm16 s

end Sys2Proof.Machine
end

