-- ==== Sys2Proof/Machine/Fetch.lean ====
section
/-! DEFINITION. Fetch, lookup and decode of one instruction (40_step_and_dispatch.md R100 to R103), and the placing of an
instruction's words where the next step fetches them. -/

namespace Sys2Proof.Machine

/-- `k` fetches in ascending address order; the words, first fetched first (20_memory.md R59). -/
def fetchWords (s : State) : Nat → Except Fault (List Word × State)
  | 0 => .ok ([], s)
  | k + 1 => do
    let (w, s) ← s.fetch16
    let (ws, s) ← fetchWords s k
    return (w :: ws, s)

/-- Fetch the opcode word, look it up, fetch its extension words (R100 to R103). A word without an entry ends the step
before any extension word is fetched (R103). All the fetches of an instruction come before its operand accesses (20 R59),
so the extension words are fetched here (log 9). -/
def fetchInstr (s : State) : Except Fault (Instr × State) := do
  let (w, s) ← s.fetch16
  match dispatchTable w with
  | none => .error (.unimplementedOpcode w)
  | some f =>
    let (xs, s) ← fetchWords s (f.extWords w)
    return (decodeForm f w (xs.getD 0 0) (xs.getD 1 0), s)

/-- The state a step begins from: no port operation issued yet (log 10). -/
def State.beginStep (s : State) : State := { s with ops := [] }

/-- The words of a table row at `a`, `a+2`, `a+4`, clean, as the hardware stores them. -/
def Memory.placeWords (m : Memory) (a : Addr) (w : Nat) : Memory :=
  ((m.storeBytes a (TV.clean (n := 2) (tableWord w 0)) 2).storeBytes (a + 2) (TV.clean (n := 2) (tableWord w 1)) 2).storeBytes
    (a + 4) (TV.clean (n := 2) (tableWord w 2)) 2

/-- A memory whose port accepts the six cells from `a`: the map as it is where it does, else the whole space (log 13). -/
def Memory.opened (m : Memory) (a : Addr) : Memory :=
  if m.allMapped a 6 then m else { m with map := [⟨0, 4294967296⟩] }

/-- The state that can fetch a program's first instruction where `pc` points, with its words there (log 13): the latch
clear, `pc` even, its cells mapped. -/
def placeInstr (s : State) (w : Nat) : State :=
  let a := s.pc &&& 0xFFFFFFFE
  { s with halted := false, pc := a, mem := (s.mem.opened a).placeWords a w }

end Sys2Proof.Machine
end

