-- ==== Sys2Proof/Machine/Step.lean ====
section
/-! DEFINITION. The step, `fetchDecodeExecute()` (40_step_and_dispatch.md R100). -/

namespace Sys2Proof.Machine

/-- One STEP request: refused while the block is halted (60_exceptions.md R218); else fetch, look up, execute (R100). -/
def step (s : State) : Host.Outcome State Fault Refusal :=
  if s.halted then .refused .halted
  else
    match fetchInstr s.beginStep with
    | .error f => .fault f
    | .ok (i, s') => exec i s'

/-- The state with an opcode-table row's words (`nbits` bits of `w`, zeros above) stored where the next step fetches: a
program is loaded from outside the machine, by the caller (70 R232, log 13). -/
def State.withFetchWord (s : State) (nbits w : Nat) : State := placeInstr s (w % 2 ^ nbits)

end Sys2Proof.Machine
end

