-- ==== Sys2Proof/Safety.lean ====
section
/-! DEFINITION. The terms in which claims about the block are stated: its invariant, runs, what an operand holds and
where it lies, the words at an address, the port operations of an instruction, and agreement up to taint. -/

namespace Sys2Proof.Machine

/-! ### Invariant and runs -/

/-- What every step keeps: the memory is in its canonical form and `SR[7:5]` is 0 (10_state.md R26, R36). -/
abbrev State.Inv (s : State) : Prop := s.mem.wf ∧ s.sr.extractLsb' 5 3 = 0

/-- A run of `k` steps, all `Ok`, ends in `t` (70_reset_and_hazards.md R237). -/
def Reaches (k : Nat) (s t : State) : Prop := Host.Core.run Sys2Proof.core k s = .next t

/-- The driver can take `k` steps from `s` without a fault or a refusal. -/
def SafeFor (k : Nat) (s : State) : Prop := ∃ t, Reaches k s t

/-! ### Operands -/

/-- The value an operand holds in `s`: a register's low bytes, the untainted immediate, or the cells at its address. -/
def sourceValue (ea : Ea) (sz : Size) (s : State) : TV sz.bytes :=
  match ea with
  | .dReg r => s.readD r sz.bytes
  | .aReg r => (s.getA r).low sz.bytes
  | .imm v => TV.clean (v.setWidth _)
  | .ind _ | .postInc _ | .preDec _ | .disp _ _ | .index _ _ | .absW _ | .absL _ | .pcDisp _ | .pcIndex _ | .unnamed _ =>
    s.mem.loadBytes ((eaAddress ea sz s).getD 0) sz.bytes

/-- The port accepts an access to the operand; true of an operand that is not in memory. -/
def operandAccepted (ea : Ea) (sz : Size) (s : State) : Bool :=
  match eaAddress ea sz s with
  | some a => s.mem.accepts a sz.bytes
  | none => true

/-- The port accepts a byte access at `a`, `a+2`, ... (`k` of them): the lanes of the byte transfer. -/
def lanesAccepted (m : Memory) (a : Addr) : Nat → Bool
  | 0 => true
  | k + 1 => m.accepts a 1 && lanesAccepted m (a + 2) k

/-- The address register that an addressing mode steps, if any (41_ea_resolver.md R124, R125). -/
def steppedReg : Ea → Option RegNo
  | .postInc r | .preDec r => some r
  | .dReg _ | .aReg _ | .ind _ | .disp _ _ | .index _ _ => none
  | .absW _ | .absL _ | .pcDisp _ | .pcIndex _ | .imm _ | .unnamed _ => none

/-- The first address of an instruction's data accesses. -/
def dataAddress (i : Instr) (s : State) : Option Addr :=
  match i with
  | .orBToReg ea _ | .orBToEa _ ea => eaAddress ea .byte s
  | .orWToReg ea _ | .orWToEa _ ea => eaAddress ea .word s
  | .orLToReg ea _ | .orLToEa _ ea => eaAddress ea .long s
  | .movepWToReg d ay _ | .movepLToReg d ay _ | .movepWToMem _ d ay | .movepLToMem _ d ay => some (movepBase s ay d)
  | .oriCcr _ | .andiCcr _ | .eoriCcr _ => none

/-! ### Results of the logical-OR family -/

/-- The flags after a logical kind with result `res` and operand taint `tc` (42_alu_and_flags.md R161): C and V are 0 and
untainted, Z and N come from the result and take `tc`, X and `SR[15:5]` are as before. -/
def LogicalFlagsAfter {n : Nat} (s t : State) (res : BitVec (8 * n)) (tc : Bool) : Prop :=
  t.flagC = false ∧ t.flagV = false ∧ t.flagZ = decide (res = 0) ∧ t.flagN = res.getLsbD (8 * n - 1) ∧ t.flagX = s.flagX ∧
  t.ft.getLsbD 0 = false ∧ t.ft.getLsbD 1 = false ∧ t.ft.getLsbD 2 = tc ∧ t.ft.getLsbD 3 = tc ∧
  t.ft.getLsbD 4 = s.ft.getLsbD 4 ∧ t.sr.extractLsb' 5 11 = s.sr.extractLsb' 5 11

/-- The stepped address register after `(An)+` or `-(An)` (41_ea_resolver.md R124, R125, R133, R135): stepped once, its
taint smeared over its four bytes. -/
def SteppedAfter (ea : Ea) (sz : Size) (s t : State) : Prop :=
  ∀ r, (ea = .postInc r → t.getA r = ⟨(s.getA r).val + stepSize sz r, TV.smear (s.getA r).tainted 4⟩) ∧
    (ea = .preDec r → t.getA r = ⟨(s.getA r).val - stepSize sz r, TV.smear (s.getA r).tainted 4⟩)

/-- The state after a register-dest OR (43_or.md R180 to R183): the low bytes of `D[dn]` are the OR, all of their taint
bits set if an operand was tainted; the bytes above them are as before; a stepped register; flags; cycles. -/
def OrToRegAfter (sz : Size) (baseCycles : Nat) (src : Ea) (dn : RegNo) (s t : State) : Prop :=
  let x := sourceValue src sz s
  let y := s.readD dn sz.bytes
  let tc := x.tainted || y.tainted
  t.readD dn sz.bytes = ⟨x.val ||| y.val, TV.smear tc sz.bytes⟩ ∧
  (t.d.get dn).val >>> (8 * sz.bytes) = (s.d.get dn).val >>> (8 * sz.bytes) ∧
  (t.d.get dn).t >>> sz.bytes = (s.d.get dn).t >>> sz.bytes ∧
  SteppedAfter src sz s t ∧ LogicalFlagsAfter s t (x.val ||| y.val) tc ∧
  t.cycles = baseCycles + s.eaCycles src sz

/-- The state after an EA-dest OR (43_or.md R180, R184 to R186): the bytes at the resolved address are the OR of `D[dn]`
and what they held, all tainted if an operand was; `D[dn]` is not written; a stepped register; flags; cycles. -/
def OrToEaAfter (sz : Size) (baseCycles : Nat) (dn : RegNo) (dst : Ea) (s t : State) : Prop :=
  ∀ a, eaAddress dst sz s = some a →
    let x := s.readD dn sz.bytes
    let y := s.mem.loadBytes a sz.bytes
    let tc := x.tainted || y.tainted
    t.mem.loadBytes a sz.bytes = ⟨x.val ||| y.val, TV.smear tc sz.bytes⟩ ∧
    t.d.get dn = s.d.get dn ∧
    SteppedAfter dst sz s t ∧ LogicalFlagsAfter s t (x.val ||| y.val) tc ∧
    t.cycles = baseCycles + s.eaCycles dst sz

/-- Address registers, both stack pointer slots included, are unchanged but for the one `ea` steps. -/
def AddressRegsFrame (ea : Option RegNo) (s t : State) : Prop :=
  (∀ r, some r ≠ ea → t.getA r = s.getA r) ∧ (s.supervisor = true → t.usp = s.usp) ∧ (s.supervisor = false → t.ssp = s.ssp)

/-! ### Fetched words and port operations -/

/-- The words `ws` lie at `a`, `a+2`, ... and the port accepts their fetches. -/
def wordsAt (m : Memory) (a : Addr) : List Word → Prop
  | [] => True
  | w :: ws => m.accepts a 2 = true ∧ (m.loadBytes a 2).val = w ∧ wordsAt m (a + 2) ws

/-- The fetches of `k` words from `a`, in ascending order (20_memory.md R59). -/
def fetchOps (a : Addr) : Nat → List PortOp
  | 0 => []
  | k + 1 => ⟨.fetch, a, 2⟩ :: fetchOps (a + 2) k

/-- The state in which an instruction of `k` words executes: `pc` past them, their fetches issued. -/
def afterFetch (s : State) (k : Nat) : State :=
  { s with pc := s.pc + BitVec.ofNat 32 (2 * k), ops := fetchOps s.pc k }

/-- The byte operations of `k` lanes from `a`, ascending (44_movep.md R190). -/
def laneOps (kind : AccessKind) (a : Addr) : Nat → List PortOp
  | 0 => []
  | k + 1 => ⟨kind, a, 1⟩ :: laneOps kind (a + 2) k

/-- The data operations of an instruction, in the order of 20_memory.md R57, R59: the source read; for an EA-dest form
the destination read, then the destination write, at the one address; the lanes of a byte transfer. -/
def dataOps (i : Instr) (s : State) : List PortOp :=
  match i with
  | .orBToReg ea _ => ((eaAddress ea .byte s).map fun a => ⟨.read, a, 1⟩).toList
  | .orWToReg ea _ => ((eaAddress ea .word s).map fun a => ⟨.read, a, 2⟩).toList
  | .orLToReg ea _ => ((eaAddress ea .long s).map fun a => ⟨.read, a, 4⟩).toList
  | .orBToEa _ ea => ((eaAddress ea .byte s).map fun a => [⟨.read, a, 1⟩, ⟨.write, a, 1⟩]).getD []
  | .orWToEa _ ea => ((eaAddress ea .word s).map fun a => [⟨.read, a, 2⟩, ⟨.write, a, 2⟩]).getD []
  | .orLToEa _ ea => ((eaAddress ea .long s).map fun a => [⟨.read, a, 4⟩, ⟨.write, a, 4⟩]).getD []
  | .movepWToReg d ay _ => laneOps .read (movepBase s ay d) 2
  | .movepLToReg d ay _ => laneOps .read (movepBase s ay d) 4
  | .movepWToMem _ d ay => laneOps .write (movepBase s ay d) 2
  | .movepLToMem _ d ay => laneOps .write (movepBase s ay d) 4
  | .oriCcr _ | .andiCcr _ | .eoriCcr _ => []

/-! ### Taint -/

/-- Same taint masks, and the same bytes wherever the mask is clear. -/
def AgreeTV {n : Nat} (v w : TV n) : Prop :=
  v.t = w.t ∧ ∀ k, k < n → v.t.getLsbD k = false → (v.lane k).val = (w.lane k).val

/-- Two states that differ at most in the values of tainted bytes and tainted flags. -/
def Agree (s t : State) : Prop :=
  (∀ r, AgreeTV (s.d.get r) (t.d.get r)) ∧ (∀ r, AgreeTV (s.getA r) (t.getA r)) ∧ AgreeTV s.usp t.usp ∧ AgreeTV s.ssp t.ssp ∧
  s.pc = t.pc ∧ s.sr.extractLsb' 5 11 = t.sr.extractLsb' 5 11 ∧ s.ft = t.ft ∧
  (∀ i, i < 5 → s.ft.getLsbD i = false → s.sr.getLsbD i = t.sr.getLsbD i) ∧ s.halted = t.halted ∧
  s.mem.map = t.mem.map ∧ (∀ a, AgreeTV (s.mem.cell a) (t.mem.cell a)) ∧ s.ops = t.ops ∧ s.costs = t.costs

/-- Two outcomes that agree: the same fault or refusal, or next states that agree and report the same cycle count. -/
def AgreeOutcome : Host.Outcome State Fault Refusal → Host.Outcome State Fault Refusal → Prop
  | .next s, .next t => Agree s t ∧ s.cycles = t.cycles
  | .fault f, .fault g => f = g
  | .refused f, .refused g => f = g
  | _, _ => False

/-- Nothing in the block or in a mapped cell is tainted. -/
def AllClean (s : State) : Prop :=
  (∀ r, (s.d.get r).t = 0) ∧ (∀ r, (s.getA r).t = 0) ∧ s.usp.t = 0 ∧ s.ssp.t = 0 ∧ s.ft = 0 ∧
  ∀ a : Addr, s.mem.mapped a.toNat = true → (s.mem.cell a).t = 0

end Sys2Proof.Machine
end

