-- ==== Sys2Proof/Certificates/Slice0/Obligations.lean ====
section
/-! DEFINITION. The statements for the provers. Each docstring names the rule of spec/ it follows. -/

open Sys2Proof Sys2Proof.Machine

/-! ### Encoding and dispatch -/

/-- Decoding the words of a well-formed instruction gives it back and leaves the words after it (30_encoding.md R80 to
R88). -/
def Obligations.DecodeOfEncodeIsIdentity : Prop :=
  ∀ (i : Instr) (rest : List Word), i.wf = true → decodeWords (encode i ++ rest) = .ok (i, rest)

/-- The other direction: what decodes is well formed, and its encoding is the words it was decoded from, every bit of
them, ignored bits included (R80 to R89). -/
def Obligations.EncodeOfDecodeIsIdentity : Prop :=
  ∀ (ws : List Word) (i : Instr) (rest : List Word), decodeWords ws = .ok (i, rest) → i.wf = true ∧ encode i ++ rest = ws

/-- On bytes: a well-formed instruction's bytes, big-endian, decode to it and to its length of 2, 4 or 6 bytes, whatever
bytes follow (R80, R92). -/
def Obligations.DecodeBytesGivesInstructionAndLength : Prop :=
  ∀ (i : Instr) (rest : List (BitVec 8)), i.wf = true →
    decode (encodeBytes i ++ rest) = .ok (i, (encodeBytes i).length) ∧
    ((encodeBytes i).length = 2 ∨ (encodeBytes i).length = 4 ∨ (encodeBytes i).length = 6)

/-- The thirteen selections are pairwise disjoint; a word is populated for a form exactly if it is the form's fixed bits
with its fields, 8 `dn` by 53 legal EA codes (register-dest) or 42 (EA-dest), 8 by 8 registers (byte transfer), or the
form's one word (R89, R90). -/
def Obligations.OpcodeSelectionsDisjointAndCounted : Prop :=
  (∀ r ∈ rows, ∀ q ∈ rows, ∀ w : Word, r.selects w = true → q.selects w = true → r = q) ∧
  (∀ (w : Word) (f : Form), (∃ sz, f = .orToReg sz ∨ f = .orToEa sz) →
    (dispatchTable w = some f ↔ ∃ dn mode reg : RegNo, f.eaLegal mode reg = true ∧
      w = f.pattern ||| placeField dn 9 ||| placeField mode 3 ||| placeField reg 0)) ∧
  (∀ (w : Word) (f : Form), (∃ l, f = .movepToReg l ∨ f = .movepToMem l) →
    (dispatchTable w = some f ↔ ∃ dx ay : RegNo, w = f.pattern ||| placeField dx 9 ||| placeField ay 0)) ∧
  (∀ w : Word, (dispatchTable w = some .oriCcr ↔ w = 0x003C) ∧ (dispatchTable w = some .andiCcr ↔ w = 0x023C) ∧
    (dispatchTable w = some .eoriCcr ↔ w = 0x0A3C)) ∧
  (∀ sz : Size,
    (((List.finRange 8).flatMap fun mode => (List.finRange 8).filter ((Form.orToReg sz).eaLegal mode)).length = 53) ∧
    (((List.finRange 8).flatMap fun mode => (List.finRange 8).filter ((Form.orToEa sz).eaLegal mode)).length = 42))

/-- Words worked out in 30_encoding.md R95 decode to the instructions they stand for. -/
def Obligations.WorkedEncodingsDecode : Prop :=
  decodeWords [0x8610] = .ok (.orBToReg (.ind 0) 3, []) ∧
  decodeWords [0x84BC, 0x8000, 0x0000] = .ok (.orLToReg (.imm 0x80000000) 2, []) ∧
  decodeWords [0x8379, 0x0000, 0x2004] = .ok (.orWToEa 1 (.absL 0x00002004), []) ∧
  decodeWords [0x8070, 0x10FC] = .ok (.orWToReg (.index 0 ⟨false, 1, false, 0, 0xFC⟩) 0, []) ∧
  decodeWords [0x03C9, 0x0000] = .ok (.movepLToMem 1 0 1, []) ∧
  decodeWords [0x0509, 0xFFFE] = .ok (.movepWToReg 0xFFFE 1 2, []) ∧
  decodeWords [0x0A3C, 0x00FF] = .ok (.eoriCcr 0x00FF, [])

/-! ### The step -/

/-- A step runs the decoded instruction: when the words at `pc` decode to `i`, the step is `exec i` at the state whose
`pc` is past those words and whose record of port operations is their fetches (40 R100 to R104). -/
def Obligations.StepExecutesDecodedInstruction : Prop :=
  ∀ (s : State) (ws : List Word) (i : Instr), s.halted = false → decodeWords ws = .ok (i, []) →
    wordsAt s.mem s.pc ws → step s = exec i (afterFetch s ws.length)

/-- An opcode word without an entry ends the step with `UnimplementedOpcode(w)` (40 R103, 60 R211). -/
def Obligations.UnpopulatedWordFaults : Prop :=
  ∀ s : State, s.halted = false → s.mem.accepts s.pc 2 = true → dispatchTable (s.mem.loadBytes s.pc 2).val = none →
    step s = .fault (.unimplementedOpcode (s.mem.loadBytes s.pc 2).val)

/-- A fetch the port refuses ends the step with `AddressingFault(pc, 2, fetch)`: the opcode word's (40 R101), or an
extension word's, with the address of that word (20 R58). -/
def Obligations.RefusedFetchFaults : Prop :=
  (∀ s : State, s.halted = false → s.mem.accepts s.pc 2 = false → step s = .fault (.addressingFault s.pc 2 .fetch)) ∧
  (∀ (s : State) (w : Word) (xs : List Word) (f : Form), s.halted = false → wordsAt s.mem s.pc (w :: xs) →
    dispatchTable w = some f → xs.length < f.extWords w →
    s.mem.accepts (s.pc + BitVec.ofNat 32 (2 * (1 + xs.length))) 2 = false →
    step s = .fault (.addressingFault (s.pc + BitVec.ofNat 32 (2 * (1 + xs.length))) 2 .fetch))

/-- A step that returns `Ok` leaves `pc = pc_start + 2 * (1 + e)` modulo 2^32, `e` the extension words its instruction
consumed: by R85 for the logical-OR family, 1 for the two other families (40 R105). -/
def Obligations.StepAdvancesPcPastItsWords : Prop :=
  ∀ s t : State, step s = .next t →
    let w := (s.mem.loadBytes s.pc 2).val
    ∃ f e, dispatchTable w = some f ∧ t.pc = s.pc + BitVec.ofNat 32 (2 * (1 + e)) ∧
      match f with
      | .orToReg sz | .orToEa sz => e = eaExtWords sz (field3 w 3) (field3 w 0) ∧ e ≤ 2
      | .movepToReg _ | .movepToMem _ | .oriCcr | .andiCcr | .eoriCcr => e = 1

/-- While the block is halted every STEP request is refused, and only INIT, which clears the latch, makes it run again
(60 R218, 10 R32): a step from a state that INIT leaves is not refused. -/
def Obligations.HaltedBlockRefusesStep : Prop :=
  (∀ s : State, s.halted = true → step s = .refused .halted) ∧ (∀ s : State, step s.halt = .refused .halted) ∧
  ∀ (q : Init) (c : CycleTables) (m : Memory) (r : Refusal), step (init q c m) ≠ .refused r

/-- No step refuses anything else: from a block that is not halted a step answers a next state or a fault (40 R100). -/
def Obligations.RunningBlockNeverRefuses : Prop :=
  ∀ (s : State) (r : Refusal), s.halted = false → step s ≠ .refused r

/-- No step raises `IllegalOperandRequest`: every populated opcode requests only what is legal for its position
(41_ea_resolver.md R139, 60 R212). -/
def Obligations.StepNeverRequestsIllegalOperand : Prop :=
  ∀ (s : State) (mode reg : RegNo) (access : Option OperandAccess), step s ≠ .fault (.illegalOperandRequest mode reg access)

/-! ### Whole-machine rules -/

/-- Every step keeps the invariant: canonical memory, and `SR[7:5] = 0` (10 R26, R36). -/
def Obligations.StepKeepsInvariant : Prop :=
  ∀ s t : State, s.Inv → step s = .next t → t.Inv

/-- The invariant holds at reset (the reset state is the model's, log 1 to 6). -/
def Obligations.ResetSatisfiesCanonicalForm : Prop := State.reset.Inv

/-- No step changes `SR[15:8]` (10 R28), and a step that completes leaves the block running (60 R218, 10 R32, log 11). That
no step changes the map of the port or the cycle tables is the model's choice (log 5, log 7): fields of State that stand
for parameters of the caller (20 R62, 00 R4). -/
def Obligations.StepKeepsStatusHighByteAndMap : Prop :=
  ∀ s t : State, step s = .next t →
    t.sr.extractLsb' 8 8 = s.sr.extractLsb' 8 8 ∧ t.halted = false ∧ t.mem.map = s.mem.map ∧ t.costs = s.costs

/-- `A[7]` is `SSP` when `SR[13]` is 1 and `USP` when it is 0, and no step writes the inactive slot (10 R23). -/
def Obligations.StackPointerBanking : Prop :=
  (∀ s : State, s.sr.getLsbD 13 = true → s.getA 7 = s.ssp) ∧ (∀ s : State, s.sr.getLsbD 13 = false → s.getA 7 = s.usp) ∧
  (∀ s t : State, step s = .next t →
    (s.sr.getLsbD 13 = true → t.usp = s.usp) ∧ (s.sr.getLsbD 13 = false → t.ssp = s.ssp))

/-- A step issues exactly the fetches of its words and then its instruction's data operations, each once and in order
(20 R57, R59, R60; the record `ops` is the model's output field, log 10). -/
def Obligations.StepIssuesPortOperationsInOrder : Prop :=
  ∀ (s t : State) (ws : List Word) (i : Instr), decodeWords ws = .ok (i, []) → wordsAt s.mem s.pc ws →
    step s = .next t → t.ops = fetchOps s.pc ws.length ++ dataOps i (afterFetch s ws.length)

/-- From a state with nothing tainted, nothing tainted appears: "a result derived from only untainted inputs is
untainted" (10 R36 (b)). -/
def Obligations.StepTaintsNothingFromClean : Prop :=
  ∀ s t : State, s.mem.wf → AllClean s → step s = .next t → AllClean t

/-- Taint accounts for every data dependence of every well-formed instruction: two states that differ only in tainted bytes
and tainted flags, and in which the instruction's data address is the same (address taint is not propagated, R140),
execute to outcomes that differ only in tainted bytes and tainted flags (10 R36, 41 R140, 42 R165, R169). -/
def Obligations.TaintCoversDataFlow : Prop :=
  ∀ (i : Instr) (s s' : State), i.wf = true → s.mem.wf → s'.mem.wf → Agree s s' → dataAddress i s = dataAddress i s' →
    AgreeOutcome (exec i s) (exec i s')

/-! ### Initialisation and introspection -/

/-- INIT loads every register from its record, clears `SR[7:5]` and the latch and leaves memory alone (70 R230); the cycle
tables are those supplied with the instance (00 R4; a field of State is the model's choice, log 7). -/
def Obligations.InitLoadsEveryRegister : Prop :=
  ∀ (r : Init) (c : CycleTables) (m : Memory), let s := init r c m
    s.d = r.d ∧ s.a = r.a ∧ s.usp = r.usp ∧ s.ssp = r.ssp ∧ s.pc = r.pc ∧ s.ft = r.ft ∧ s.halted = false ∧ s.mem = m ∧
    s.costs = c ∧
    s.sr.extractLsb' 8 8 = r.sr.extractLsb' 8 8 ∧ s.sr.extractLsb' 5 3 = 0 ∧ s.sr.extractLsb' 0 5 = r.sr.extractLsb' 0 5

/-- The introspection accessors: full slots, `pc` untainted, the flag byte tainted if any flag is, each flag with its own
taint, the high byte untainted (10 R33). -/
def Obligations.IntrospectionAccessors : Prop :=
  ∀ s : State, (∀ r, introspectD s r = s.d.get r) ∧ (∀ r, introspectA s r = s.getA r) ∧
    introspectPc s = ⟨s.pc, 0⟩ ∧ (introspectFlagByte s).val = s.sr.extractLsb' 0 8 ∧
    ((introspectFlagByte s).tainted = true ↔ ∃ i : Fin 5, (introspectFlag s i).2 = true) ∧
    introspectFlag s 0 = (s.flagC, s.ft.getLsbD 0) ∧ introspectFlag s 1 = (s.flagV, s.ft.getLsbD 1) ∧
    introspectFlag s 2 = (s.flagZ, s.ft.getLsbD 2) ∧ introspectFlag s 3 = (s.flagN, s.ft.getLsbD 3) ∧
    introspectFlag s 4 = (s.flagX, s.ft.getLsbD 4) ∧ introspectSrHigh s = ⟨s.sr.extractLsb' 8 8, 0⟩

/-! ### Registers -/

/-- Narrow access (10 R24): of any slot, a read of size `sz` gives the low bytes with their taint bits; a write gives them
the value and its taint bits and leaves the bytes and the taint bits above; the data registers are read and written so,
one at a time. -/
def Obligations.NarrowAccessKeepsUpperBytes : Prop :=
  ∀ (sz : Size) (v : TV sz.bytes),
    (∀ slot : TV 4,
      slot.low sz.bytes = ⟨slot.val.setWidth _, slot.t.setWidth _⟩ ∧ (slot.setLow v).low sz.bytes = v ∧
      (slot.setLow v).val >>> (8 * sz.bytes) = slot.val >>> (8 * sz.bytes) ∧
      (slot.setLow v).t >>> sz.bytes = slot.t >>> sz.bytes) ∧
    ∀ (s : State) (r : RegNo),
      s.readD r sz.bytes = (s.d.get r).low sz.bytes ∧ (s.writeD r v).d.get r = (s.d.get r).setLow v ∧
      ∀ q, q ≠ r → (s.writeD r v).d.get q = s.d.get q

/-! ### Memory -/

/-- Big-endian: a word or long read is its cells in ascending address order, the first most significant, each cell's
taint in its own mask bit (20 R52, R53). -/
def Obligations.MemoryReadsAreBigEndian : Prop :=
  ∀ (m : Memory) (a : Addr),
    m.loadBytes a 1 = m.cell a ∧
    (m.loadBytes a 2).lane 1 = m.cell a ∧ (m.loadBytes a 2).lane 0 = m.cell (a + 1) ∧
    (m.loadBytes a 4).lane 3 = m.cell a ∧ (m.loadBytes a 4).lane 2 = m.cell (a + 1) ∧
    (m.loadBytes a 4).lane 1 = m.cell (a + 2) ∧ (m.loadBytes a 4).lane 0 = m.cell (a + 3)

/-- A write the port accepts, read back at its address and width, gives the identical value and taint, and no other cell
changes (20 R54, R68; that every accepted address stores what it is given is the model's choice of port, log 4). -/
def Obligations.MemoryWriteReadsBack : Prop :=
  ∀ (sz : Size) (s : State) (a : Addr) (v : TV sz.bytes), s.mem.wf → s.mem.accepts a sz.bytes = true →
    ∃ t, s.memWrite a v = .ok t ∧ t.mem.loadBytes a sz.bytes = v ∧ t.mem.wf ∧
      ∀ b : Addr, (∀ i, i < sz.bytes → b ≠ a + BitVec.ofNat 32 i) → t.mem.cell b = s.mem.cell b

/-- The port refuses a word or long at an odd address, and any access with an unmapped cell, and accepts every other: a
byte exactly if its cell is mapped, a word or a long exactly if its address is even and all its cells, at addresses modulo
2^32, are mapped (20 R55, R56, R68; the port is the reference memory with `ALIGN_CHECK = true`, log 4, 8). -/
def Obligations.PortRefusals : Prop :=
  (∀ (s : State) (k : AccessKind) (a : Addr), a.getLsbD 0 = true →
    s.memRead k a 2 = .error (.addressingFault a 2 k) ∧ s.memRead k a 4 = .error (.addressingFault a 4 k)) ∧
  (∀ (s : State) (a : Addr) (v : TV 2), a.getLsbD 0 = true → s.memWrite a v = .error (.addressingFault a 2 .write)) ∧
  (∀ (s : State) (a : Addr) (v : TV 4), a.getLsbD 0 = true → s.memWrite a v = .error (.addressingFault a 4 .write)) ∧
  (∀ (sz : Size) (s : State) (k : AccessKind) (a : Addr) (i : Nat), i < sz.bytes →
    s.mem.mapped (a + BitVec.ofNat 32 i).toNat = false →
    s.memRead k a sz.bytes = .error (.addressingFault a sz.bytes k) ∧
    ∀ v : TV sz.bytes, s.memWrite a v = .error (.addressingFault a sz.bytes .write)) ∧
  (∀ (m : Memory) (a : Addr), m.accepts a 1 = m.mapped a.toNat) ∧
  (∀ (m : Memory) (a : Addr) (n : Nat), n = 2 ∨ n = 4 →
    (m.accepts a n = true ↔ a.getLsbD 0 = false ∧ ∀ i, i < n → m.mapped (a + BitVec.ofNat 32 i).toNat = true))

/-! ### ALU and flags -/

/-- The value of each ALU kind; OR is commutative in value and in taint; MOVE passes its source through (42 R151 to
R157). -/
def Obligations.AluValuesPerKind : Prop :=
  ∀ (sz : Size) (x y : TV sz.bytes),
    (alu .or x y).val = x.val ||| y.val ∧ alu .or x y = alu .or y x ∧ (alu .and x y).val = x.val &&& y.val ∧
    (alu .eor x y).val = x.val ^^^ y.val ∧ alu .move x y = x ∧
    (alu .add x y).val.toNat = (y.val.toNat + x.val.toNat) % 2 ^ (8 * sz.bytes) ∧
    (alu .sub x y).val.toNat = (y.val.toNat + (2 ^ (8 * sz.bytes) - x.val.toNat)) % 2 ^ (8 * sz.bytes) ∧
    (alu .cmp x y).val = (alu .sub x y).val

/-- The properties the source states of the unit (42 R168): OR and its flags are commutative; after a logical kind C and
V are 0 and untainted; the result of every combining kind is tainted exactly if an input is. -/
def Obligations.FlagUnitLaws : Prop :=
  ∀ (sz : Size) (x y : TV sz.bytes),
    (alu .or x y = alu .or y x ∧ computeFlags .or x y (alu .or x y) = computeFlags .or y x (alu .or y x)) ∧
    (∀ k ∈ [AluKind.or, .and, .eor, .move], ∀ (res : TV sz.bytes) (s : State),
      let t := s.applyFlags (computeFlags k x y res)
      t.flagC = false ∧ t.flagV = false ∧ t.ft.getLsbD 0 = false ∧ t.ft.getLsbD 1 = false) ∧
    (∀ k ∈ [AluKind.or, .and, .eor, .add, .sub, .cmp], (alu k x y).tainted = (x.tainted || y.tainted))

/-- The logical kinds OR, AND, EOR, MOVE: C and V cleared and untainted, Z and N from the result with taint `tc` (for MOVE
the source's), X and its taint unchanged (42 R161, R167). -/
def Obligations.LogicalKindsFlags : Prop :=
  ∀ (sz : Size) (x y res : TV sz.bytes) (s : State),
    (∀ k ∈ [AluKind.or, .and, .eor],
      LogicalFlagsAfter s (s.applyFlags (computeFlags k x y res)) res.val (x.tainted || y.tainted)) ∧
    LogicalFlagsAfter s (s.applyFlags (computeFlags .move x y res)) res.val x.tainted

/-- Kind ADD: carry out, signed overflow, X as C, Z, N, and every flag taint `tc` (42 R162). -/
def Obligations.AddFlags : Prop :=
  ∀ (sz : Size) (x y : TV sz.bytes) (s : State),
    let r := alu .add x y
    let t := s.applyFlags (computeFlags .add x y r)
    t.flagC = ((x.msb && y.msb) || (!r.msb && y.msb) || (x.msb && !r.msb)) ∧
    t.flagV = ((x.msb && y.msb && !r.msb) || (!x.msb && !y.msb && r.msb)) ∧
    t.flagC = decide (2 ^ (8 * sz.bytes) ≤ y.val.toNat + x.val.toNat) ∧
    t.flagV = decide (y.val.toInt + x.val.toInt ≠ r.val.toInt) ∧
    t.flagX = t.flagC ∧ t.flagZ = decide (r.val = 0) ∧ t.flagN = r.msb ∧
    (∀ i, i < 5 → t.ft.getLsbD i = (x.tainted || y.tainted)) ∧ t.sr.extractLsb' 5 11 = s.sr.extractLsb' 5 11

/-- Kind SUB, destination minus source: borrow, signed overflow, X as C, Z, N, and every flag taint `tc` (42 R163). -/
def Obligations.SubFlags : Prop :=
  ∀ (sz : Size) (x y : TV sz.bytes) (s : State),
    let r := alu .sub x y
    let t := s.applyFlags (computeFlags .sub x y r)
    t.flagC = ((x.msb && !y.msb) || (r.msb && !y.msb) || (x.msb && r.msb)) ∧
    t.flagV = ((!x.msb && y.msb && !r.msb) || (x.msb && !y.msb && r.msb)) ∧
    t.flagC = decide (y.val.toNat < x.val.toNat) ∧
    t.flagV = decide (y.val.toInt - x.val.toInt ≠ r.val.toInt) ∧
    t.flagX = t.flagC ∧ t.flagZ = decide (r.val = 0) ∧ t.flagN = r.msb ∧
    (∀ i, i < 5 → t.ft.getLsbD i = (x.tainted || y.tainted)) ∧ t.sr.extractLsb' 5 11 = s.sr.extractLsb' 5 11

/-- Kind CMP: C, V, Z, N and their taints as SUB; X and its taint unchanged (42 R164). -/
def Obligations.CmpFlagsAsSubButExtend : Prop :=
  ∀ (sz : Size) (x y : TV sz.bytes) (s : State),
    let t := s.applyFlags (computeFlags .cmp x y (alu .cmp x y))
    let u := s.applyFlags (computeFlags .sub x y (alu .sub x y))
    t.flagC = u.flagC ∧ t.flagV = u.flagV ∧ t.flagZ = u.flagZ ∧ t.flagN = u.flagN ∧
    (∀ i, i < 4 → t.ft.getLsbD i = u.ft.getLsbD i) ∧ t.flagX = s.flagX ∧ t.ft.getLsbD 4 = s.ft.getLsbD 4

/-- The flag-byte write path, bit by bit: the new flags, the new taints under `forced_clears` (log 8), `SR[7:5]` cleared,
`SR[15:8]` unchanged, nothing else written (42 R169). -/
def Obligations.FlagByteWritePath : Prop :=
  ∀ (s : State) (op : CcrOp) (imm : BitVec 5), let t := s.flagByteWrite op imm
    (∀ i, i < 5 → t.sr.getLsbD i =
      (match op with
       | .or => s.sr.getLsbD i || imm.getLsbD i
       | .and => s.sr.getLsbD i && imm.getLsbD i
       | .eor => s.sr.getLsbD i ^^ imm.getLsbD i)) ∧
    (∀ i, i < 5 → t.ft.getLsbD i =
      (match op with
       | .or => if imm.getLsbD i then false else s.ft.getLsbD i
       | .and => if imm.getLsbD i then s.ft.getLsbD i else false
       | .eor => s.ft.getLsbD i)) ∧
    t.sr.extractLsb' 5 3 = 0 ∧ t.sr.extractLsb' 8 8 = s.sr.extractLsb' 8 8 ∧ t = { s with sr := t.sr, ft := t.ft }

/-! ### The resolver -/

/-- The step of the postincrement and predecrement modes (41 R133). -/
def Obligations.AutoStepSize : Prop :=
  (∀ r : RegNo, stepSize .byte r = if r = 7 then 2 else 1) ∧ (∀ r, stepSize .word r = 2) ∧ (∀ r, stepSize .long r = 4)

/-- `(An)+` and `-(An)`: the operand is at the address before the increment, after the decrement; the register steps once,
at resolution, and its taint is smeared over its four bytes; the mode's extra cycles are reported; nothing else changes
(41 R124, R125, R135, R138). -/
def Obligations.AutoStepResolution : Prop :=
  ∀ (r : RegNo) (sz : Size) (s : State),
    (∃ o t, resolve (.postInc r) sz s = .ok (o, t) ∧ o.kind = .mem (s.getA r).val ∧ o.extra = s.eaCycles (.postInc r) sz ∧
      t.getA r = ⟨(s.getA r).val + stepSize sz r, if (s.getA r).t = 0 then 0 else 15⟩ ∧ AddressRegsFrame (some r) s t ∧
      t = { s with a := t.a, usp := t.usp, ssp := t.ssp }) ∧
    (∃ o t, resolve (.preDec r) sz s = .ok (o, t) ∧ o.kind = .mem ((s.getA r).val - stepSize sz r) ∧
      o.extra = s.eaCycles (.preDec r) sz ∧
      t.getA r = ⟨(s.getA r).val - stepSize sz r, if (s.getA r).t = 0 then 0 else 15⟩ ∧ AddressRegsFrame (some r) s t ∧
      t = { s with a := t.a, usp := t.usp, ssp := t.ssp })

/-- The value that an index extension word adds: the index register's long, or its sign-extended low word, plus the
sign-extended 8-bit displacement; bits 10:8 are ignored (41 R134). -/
def Obligations.IndexValue : Prop :=
  ∀ (s : State) (x : IndexWord),
    let xn := if x.isAddr = true then s.getA x.xr else s.d.get x.xr
    indexOffset s x = (if x.whole = true then xn.val else (xn.val.extractLsb' 0 16).signExtend 32) + x.d8.signExtend 32

/-- The other ten modes: what each names, with its extra cycles and without any side effect (41 R121 to R123, R126 to
R132); and what reading and writing an operand of each kind does (R136, R137): a data register's low bytes; at word and
long size the low bytes of an address register with their taint bits; the immediate; one port read or write at the
address. The PC-relative modes are read in the state after a two-word instruction at `s.pc` was fetched: their base is the
address of the extension word (R130, R131; log 9). -/
def Obligations.PlainModesResolution : Prop :=
  ∀ (sz : Size) (s : State),
    (∀ r, resolve (.dReg r) sz s = .ok (⟨0, r, .dReg r, s.eaCycles (.dReg r) sz⟩, s)) ∧
    (∀ r, resolve (.aReg r) sz s = .ok (⟨1, r, .aReg r, s.eaCycles (.aReg r) sz⟩, s)) ∧
    (∀ r, resolve (.ind r) sz s = .ok (⟨2, r, .mem (s.getA r).val, s.eaCycles (.ind r) sz⟩, s)) ∧
    (∀ r d, resolve (.disp r d) sz s =
      .ok (⟨5, r, .mem ((s.getA r).val + d.signExtend 32), s.eaCycles (.disp r d) sz⟩, s)) ∧
    (∀ r x, resolve (.index r x) sz s =
      .ok (⟨6, r, .mem ((s.getA r).val + indexOffset s x), s.eaCycles (.index r x) sz⟩, s)) ∧
    (∀ w, resolve (.absW w) sz s = .ok (⟨7, 0, .mem (w.signExtend 32), s.eaCycles (.absW w) sz⟩, s)) ∧
    (∀ a, resolve (.absL a) sz s = .ok (⟨7, 1, .mem a, s.eaCycles (.absL a) sz⟩, s)) ∧
    (∀ d, let u := afterFetch s 2
      resolve (.pcDisp d) sz u = .ok (⟨7, 2, .mem (s.pc + 2 + d.signExtend 32), s.eaCycles (.pcDisp d) sz⟩, u)) ∧
    (∀ x, let u := afterFetch s 2
      resolve (.pcIndex x) sz u = .ok (⟨7, 3, .mem (s.pc + 2 + indexOffset s x), s.eaCycles (.pcIndex x) sz⟩, u)) ∧
    (∀ v, resolve (.imm v) sz s = .ok (⟨7, 4, .imm ⟨v.setWidth _, 0⟩, s.eaCycles (.imm v) sz⟩, s)) ∧
    (∀ m q r x, (⟨m, q, .dReg r, x⟩ : Operand sz.bytes).read s = .ok ((s.d.get r).low sz.bytes, s)) ∧
    (∀ m q r x, (⟨m, q, .aReg r, x⟩ : Operand 2).read s = .ok ((s.getA r).low 2, s) ∧
      (⟨m, q, .aReg r, x⟩ : Operand 4).read s = .ok (s.getA r, s)) ∧
    (∀ m q v x, (⟨m, q, .imm v, x⟩ : Operand sz.bytes).read s = .ok (v, s)) ∧
    (∀ m q a x, (⟨m, q, .mem a, x⟩ : Operand sz.bytes).read s = s.memRead .read a sz.bytes) ∧
    (∀ m q r x v, (⟨m, q, .dReg r, x⟩ : Operand sz.bytes).write v s = .ok (s.writeD r v)) ∧
    (∀ m q a x v, isPcRelative m q = false → (⟨m, q, .mem a, x⟩ : Operand sz.bytes).write v s = s.memWrite a v)

/-- `IllegalOperandRequest` (what it records is log 12): a mode 111 register that names no mode, a byte read of an address
register, and a write to an address register, an immediate or a PC-relative operand (41 R136, R137, R142). -/
def Obligations.IllegalOperandRequests : Prop :=
  ∀ (sz : Size) (s : State) (v : TV sz.bytes),
    (∀ r, resolve (.unnamed r) sz s = .error (.illegalOperandRequest 7 r none)) ∧
    (∀ (o : Operand 1) (r : RegNo), o.kind = .aReg r → o.read s = .error (.illegalOperandRequest o.mode o.reg (some .read))) ∧
    (∀ ea o t, resolve ea sz s = .ok (o, t) →
      ((∃ r, ea = .aReg r) ∨ (∃ w, ea = .imm w) ∨ (∃ d, ea = .pcDisp d) ∨ (∃ x, ea = .pcIndex x)) →
      o.write v t = .error (.illegalOperandRequest ea.mode ea.reg (some .write)))

/-- Writing through a resolved operand and reading it back through the same operand gives the identical value and taint,
for every mode that can be written and whose address the port accepts (41 R141). For an operand in memory R141 asks for a
port that stores what it is given; that every accepted address does so (20 R54, R68) is the model's choice of the
reference memory (log 4), and the memory clause rests on it. -/
def Obligations.ResolvedOperandRoundTrip : Prop :=
  ∀ (sz : Size) (ea : Ea) (s : State) (v : TV sz.bytes), s.mem.wf →
    (ea.isDest = true ∨ ∃ r, ea = .dReg r) → operandAccepted ea sz s = true →
    ∃ o t u w, resolve ea sz s = .ok (o, t) ∧ o.write v t = .ok u ∧ o.read u = .ok (v, w)

/-- The cycle tables: `EA_CYCLES(mode, reg, size)` is the entry of the table in State, whatever table it is (41 R138: a
parameter); `State.reset` carries the spec's default (the model's choice, log 7); and the default is R138's table, `An` as
`Dn`, with 16 and 24 cycles for the byte transfers (44 R190). -/
def Obligations.ExtraCyclesDefaultTable : Prop :=
  (∀ (s : State) (ea : Ea) (sz : Size), s.eaCycles ea sz = ((s.costs.ea.get ea.mode).get ea.reg).forSize sz) ∧
  State.reset.costs = defaultCycles ∧
  ∀ s : State, s.costs = defaultCycles → s.costs.movepWord = 16 ∧ s.costs.movepLong = 24 ∧
    ∀ (r : RegNo) (d : BitVec 16) (x : IndexWord) (a : BitVec 32),
      ([Ea.dReg r, .aReg r, .ind r, .postInc r, .preDec r, .disp r d, .index r x, .absW d, .absL a, .pcDisp d, .pcIndex x,
          .imm a].map fun ea => (s.eaCycles ea .byte, s.eaCycles ea .word, s.eaCycles ea .long)) =
      [(0, 0, 0), (0, 0, 0), (4, 4, 8), (4, 4, 8), (6, 6, 10), (8, 8, 12), (10, 10, 14), (8, 8, 12), (12, 12, 16),
       (8, 8, 12), (10, 10, 14), (4, 4, 8)]

/-! ### The logical-OR family -/

/-- `OR.B <ea>,Dn` completes whenever the port accepts its operand, with the result, flags and cycles of 43 R181
(result taint: `TAINT_COMBINE = smear`, log 8; mode cost: that of the table supplied, whichever it is, log 7). -/
def Obligations.OrByteToRegister : Prop :=
  ∀ (src : Ea) (dn : RegNo) (s : State), src.isSource = true → operandAccepted src .byte s = true →
    ∃ t, exec (.orBToReg src dn) s = .next t ∧ OrToRegAfter .byte 4 src dn s t

/-- `OR.W <ea>,Dn` (43 R182; log 7, 8 as for the byte form). -/
def Obligations.OrWordToRegister : Prop :=
  ∀ (src : Ea) (dn : RegNo) (s : State), src.isSource = true → operandAccepted src .word s = true →
    ∃ t, exec (.orWToReg src dn) s = .next t ∧ OrToRegAfter .word 4 src dn s t

/-- `OR.L <ea>,Dn` (43 R183; log 7, 8 as for the byte form). -/
def Obligations.OrLongToRegister : Prop :=
  ∀ (src : Ea) (dn : RegNo) (s : State), src.isSource = true → operandAccepted src .long s = true →
    ∃ t, exec (.orLToReg src dn) s = .next t ∧ OrToRegAfter .long 6 src dn s t

/-- `OR.B Dn,<ea>` completes whenever the port accepts its operand, with the result, flags and cycles of 43 R184
(log 7, 8 as for the register forms). -/
def Obligations.OrByteToMemory : Prop :=
  ∀ (dn : RegNo) (dst : Ea) (s : State), dst.isDest = true → s.mem.wf → operandAccepted dst .byte s = true →
    ∃ t, exec (.orBToEa dn dst) s = .next t ∧ OrToEaAfter .byte 8 dn dst s t

/-- `OR.W Dn,<ea>` (43 R185; log 7, 8). -/
def Obligations.OrWordToMemory : Prop :=
  ∀ (dn : RegNo) (dst : Ea) (s : State), dst.isDest = true → s.mem.wf → operandAccepted dst .word s = true →
    ∃ t, exec (.orWToEa dn dst) s = .next t ∧ OrToEaAfter .word 8 dn dst s t

/-- `OR.L Dn,<ea>` (43 R186; log 7, 8). -/
def Obligations.OrLongToMemory : Prop :=
  ∀ (dn : RegNo) (dst : Ea) (s : State), dst.isDest = true → s.mem.wf → operandAccepted dst .long s = true →
    ∃ t, exec (.orLToEa dn dst) s = .next t ∧ OrToEaAfter .long 12 dn dst s t

/-- A memory operand of the family that the port refuses ends it with `AddressingFault(address, n, read)` (43 R180). -/
def Obligations.OrRefusedOperandFaults : Prop :=
  ∀ (ea : Ea) (dn : RegNo) (s : State) (a : Addr),
    (eaAddress ea .byte s = some a → s.mem.accepts a 1 = false →
      exec (.orBToReg ea dn) s = .fault (.addressingFault a 1 .read) ∧
      exec (.orBToEa dn ea) s = .fault (.addressingFault a 1 .read)) ∧
    (eaAddress ea .word s = some a → s.mem.accepts a 2 = false →
      exec (.orWToReg ea dn) s = .fault (.addressingFault a 2 .read) ∧
      exec (.orWToEa dn ea) s = .fault (.addressingFault a 2 .read)) ∧
    (eaAddress ea .long s = some a → s.mem.accepts a 4 = false →
      exec (.orLToReg ea dn) s = .fault (.addressingFault a 4 .read) ∧
      exec (.orLToEa dn ea) s = .fault (.addressingFault a 4 .read))

/-- Frame of the register-dest forms (storing nothing): every data register but `D[dn]`, every address register but the
one `(An)+` or `-(An)` steps, both stack pointer slots, `pc`, `SR[15:5]`, X and its taint, the latch, the
cycle tables (log 7) and every byte of memory are unchanged (43 R180, 10 R35). -/
def Obligations.OrToRegisterFrame : Prop :=
  ∀ (src : Ea) (dn : RegNo) (s t : State),
    (exec (.orBToReg src dn) s = .next t ∨ exec (.orWToReg src dn) s = .next t ∨ exec (.orLToReg src dn) s = .next t) →
    (∀ r, r ≠ dn → t.d.get r = s.d.get r) ∧ AddressRegsFrame (steppedReg src) s t ∧ t.pc = s.pc ∧
    t.sr.extractLsb' 5 11 = s.sr.extractLsb' 5 11 ∧ t.flagX = s.flagX ∧ t.ft.getLsbD 4 = s.ft.getLsbD 4 ∧
    t.halted = s.halted ∧ t.costs = s.costs ∧ t.mem = s.mem

/-- Frame of the EA-dest forms on their legal destinations: every data register, every address register but the one
stepped, both stack pointer slots, `pc`, `SR[15:5]`, X and its taint, the latch and the cycle tables (log 7) are unchanged,
and for the address `a` stored to every byte of memory outside the operand's bytes from `a` reads as before (43 R180, 10 R35). -/
def Obligations.OrToMemoryFrame : Prop :=
  ∀ (dn : RegNo) (dst : Ea) (s t : State) (sz : Size), dst.isDest = true →
    (sz = .byte ∧ exec (.orBToEa dn dst) s = .next t ∨ sz = .word ∧ exec (.orWToEa dn dst) s = .next t ∨
      sz = .long ∧ exec (.orLToEa dn dst) s = .next t) →
    t.d = s.d ∧ AddressRegsFrame (steppedReg dst) s t ∧ t.pc = s.pc ∧
    t.sr.extractLsb' 5 11 = s.sr.extractLsb' 5 11 ∧ t.flagX = s.flagX ∧ t.ft.getLsbD 4 = s.ft.getLsbD 4 ∧
    t.halted = s.halted ∧ t.costs = s.costs ∧ t.mem.map = s.mem.map ∧
    ∀ a, eaAddress dst sz s = some a →
      ∀ b : Addr, (∀ i, i < sz.bytes → b ≠ a + BitVec.ofNat 32 i) → t.mem.cell b = s.mem.cell b

/-! ### The byte-lane transfer family -/

/-- `MOVEP.W d16(Ay),Dx`: the low word of `D[dx]` becomes the bytes at `base` and `base+2`, each lane with its own taint;
the upper word and its taint, and every flag, are kept (44 R191; the cycle count is that of the
table supplied, whichever it is, log 7). -/
def Obligations.MovepWordToRegister : Prop :=
  ∀ (d16 : BitVec 16) (ay dx : RegNo) (s : State),
    let base := (s.getA ay).val + d16.signExtend 32
    s.mem.accepts base 1 = true → s.mem.accepts (base + 2) 1 = true →
    ∃ t, exec (.movepWToReg d16 ay dx) s = .next t ∧
      (t.readD dx 2).lane 1 = s.mem.cell base ∧ (t.readD dx 2).lane 0 = s.mem.cell (base + 2) ∧
      (t.d.get dx).val >>> 16 = (s.d.get dx).val >>> 16 ∧ (t.d.get dx).t >>> 2 = (s.d.get dx).t >>> 2 ∧
      t.sr = s.sr ∧ t.ft = s.ft ∧ t.cycles = s.costs.movepWord

/-- `MOVEP.L d16(Ay),Dx`: the whole of `D[dx]` becomes the bytes at `base`, `base+2`, `base+4`, `base+6` (44 R192; cycles:
log 7). -/
def Obligations.MovepLongToRegister : Prop :=
  ∀ (d16 : BitVec 16) (ay dx : RegNo) (s : State),
    let base := (s.getA ay).val + d16.signExtend 32
    s.mem.accepts base 1 = true → s.mem.accepts (base + 2) 1 = true → s.mem.accepts (base + 4) 1 = true →
    s.mem.accepts (base + 6) 1 = true →
    ∃ t, exec (.movepLToReg d16 ay dx) s = .next t ∧
      (t.d.get dx).lane 3 = s.mem.cell base ∧ (t.d.get dx).lane 2 = s.mem.cell (base + 2) ∧
      (t.d.get dx).lane 1 = s.mem.cell (base + 4) ∧ (t.d.get dx).lane 0 = s.mem.cell (base + 6) ∧
      t.sr = s.sr ∧ t.ft = s.ft ∧ t.cycles = s.costs.movepLong

/-- `MOVEP.W Dx,d16(Ay)`: bits 15:8 of `D[dx]` go to `base`, bits 7:0 to `base+2`, each with its own taint bit (44 R193;
cycles: log 7). -/
def Obligations.MovepWordToMemory : Prop :=
  ∀ (dx : RegNo) (d16 : BitVec 16) (ay : RegNo) (s : State), s.mem.wf →
    let base := (s.getA ay).val + d16.signExtend 32
    s.mem.accepts base 1 = true → s.mem.accepts (base + 2) 1 = true →
    ∃ t, exec (.movepWToMem dx d16 ay) s = .next t ∧
      t.mem.cell base = ⟨(s.d.get dx).val.extractLsb' 8 8, (s.d.get dx).t.extractLsb' 1 1⟩ ∧
      t.mem.cell (base + 2) = ⟨(s.d.get dx).val.extractLsb' 0 8, (s.d.get dx).t.extractLsb' 0 1⟩ ∧
      t.sr = s.sr ∧ t.ft = s.ft ∧ t.cycles = s.costs.movepWord

/-- `MOVEP.L Dx,d16(Ay)`: the four bytes of `D[dx]`, most significant first, go to `base`, `base+2`, `base+4`, `base+6`,
each with its own taint bit (44 R194; cycles: log 7). -/
def Obligations.MovepLongToMemory : Prop :=
  ∀ (dx : RegNo) (d16 : BitVec 16) (ay : RegNo) (s : State), s.mem.wf →
    let base := (s.getA ay).val + d16.signExtend 32
    s.mem.accepts base 1 = true → s.mem.accepts (base + 2) 1 = true → s.mem.accepts (base + 4) 1 = true →
    s.mem.accepts (base + 6) 1 = true →
    ∃ t, exec (.movepLToMem dx d16 ay) s = .next t ∧
      t.mem.cell base = ⟨(s.d.get dx).val.extractLsb' 24 8, (s.d.get dx).t.extractLsb' 3 1⟩ ∧
      t.mem.cell (base + 2) = ⟨(s.d.get dx).val.extractLsb' 16 8, (s.d.get dx).t.extractLsb' 2 1⟩ ∧
      t.mem.cell (base + 4) = ⟨(s.d.get dx).val.extractLsb' 8 8, (s.d.get dx).t.extractLsb' 1 1⟩ ∧
      t.mem.cell (base + 6) = ⟨(s.d.get dx).val.extractLsb' 0 8, (s.d.get dx).t.extractLsb' 0 1⟩ ∧
      t.sr = s.sr ∧ t.ft = s.ft ∧ t.cycles = s.costs.movepLong

/-- The first lane the port refuses ends the instruction with `AddressingFault(base + 2j, 1, kind)` (44 R190, 60 R213). -/
def Obligations.MovepRefusedLaneFaults : Prop :=
  ∀ (d16 : BitVec 16) (ay dx : RegNo) (s : State) (j : Nat),
    let base := (s.getA ay).val + d16.signExtend 32
    lanesAccepted s.mem base j = true → s.mem.accepts (base + BitVec.ofNat 32 (2 * j)) 1 = false →
    (j < 2 → exec (.movepWToReg d16 ay dx) s = .fault (.addressingFault (base + BitVec.ofNat 32 (2 * j)) 1 .read) ∧
      exec (.movepWToMem dx d16 ay) s = .fault (.addressingFault (base + BitVec.ofNat 32 (2 * j)) 1 .write)) ∧
    (j < 4 → exec (.movepLToReg d16 ay dx) s = .fault (.addressingFault (base + BitVec.ofNat 32 (2 * j)) 1 .read) ∧
      exec (.movepLToMem dx d16 ay) s = .fault (.addressingFault (base + BitVec.ofNat 32 (2 * j)) 1 .write))

/-- Frame of the memory-to-register forms: all but `D[dx]` is unchanged, every byte of memory included; the two output
fields apart (44 R190, R195). -/
def Obligations.MovepToRegisterFrame : Prop :=
  ∀ (d16 : BitVec 16) (ay dx : RegNo) (s t : State),
    (exec (.movepWToReg d16 ay dx) s = .next t ∨ exec (.movepLToReg d16 ay dx) s = .next t) →
    (∀ r, r ≠ dx → t.d.get r = s.d.get r) ∧ t = { s with d := t.d, cycles := t.cycles, ops := t.ops }

/-- Frame of the register-to-memory forms: every register and flag is unchanged, and every byte of memory outside the
lanes `base + 2i` reads as before; the bytes between the lanes are among those (44 R190, R195). -/
def Obligations.MovepToMemoryFrame : Prop :=
  ∀ (dx : RegNo) (d16 : BitVec 16) (ay : RegNo) (s t : State) (k : Nat),
    (k = 2 ∧ exec (.movepWToMem dx d16 ay) s = .next t ∨ k = 4 ∧ exec (.movepLToMem dx d16 ay) s = .next t) →
    t = { s with mem := t.mem, cycles := t.cycles, ops := t.ops } ∧ t.mem.map = s.mem.map ∧
    ∀ b : Addr, (∀ i, i < k → b ≠ (s.getA ay).val + d16.signExtend 32 + BitVec.ofNat 32 (2 * i)) →
      t.mem.cell b = s.mem.cell b

/-- A register-to-memory transfer followed by the memory-to-register transfer of the same size, base and displacement
restores value and taint of the bytes moved, into any data register (44 R195 (a)). R195's proviso, that the port stores what
it is given (20 R54, R68), is met by the model's choice of the reference memory (log 4), not by the spec. -/
def Obligations.MovepRoundTrip : Prop :=
  ∀ (dx dy ay : RegNo) (d16 : BitVec 16) (s t : State), s.mem.wf →
    (exec (.movepWToMem dx d16 ay) s = .next t →
      ∃ u, exec (.movepWToReg d16 ay dy) t = .next u ∧ u.readD dy 2 = s.readD dx 2) ∧
    (exec (.movepLToMem dx d16 ay) s = .next t →
      ∃ u, exec (.movepLToReg d16 ay dy) t = .next u ∧ u.d.get dy = s.d.get dx)

/-! ### The immediate-logical-on-status family -/

/-- `ORI #imm,CCR` completes in every state: flags whose immediate bit is 1 become 1 and untainted, the others keep value
and taint; `SR[7:5]` is 0; 8 cycles; nothing else changes (45 R200, R201; `CCR_IMM_TAINT = forced_clears`, log 8). -/
def Obligations.OriCcrSetsFlags : Prop :=
  ∀ (imm16 : BitVec 16) (s : State), ∃ t, exec (.oriCcr imm16) s = .next t ∧
    (∀ i, i < 5 → t.sr.getLsbD i = (s.sr.getLsbD i || imm16.getLsbD i)) ∧
    (∀ i, i < 5 → t.ft.getLsbD i = if imm16.getLsbD i then false else s.ft.getLsbD i) ∧
    t.sr.extractLsb' 5 3 = 0 ∧ t.sr.extractLsb' 8 8 = s.sr.extractLsb' 8 8 ∧
    t = { s with sr := t.sr, ft := t.ft, cycles := 8 }

/-- `ANDI #imm,CCR` completes in every state: flags whose immediate bit is 0 become 0 and untainted, the others keep value
and taint (45 R200, R202; log 8). -/
def Obligations.AndiCcrClearsFlags : Prop :=
  ∀ (imm16 : BitVec 16) (s : State), ∃ t, exec (.andiCcr imm16) s = .next t ∧
    (∀ i, i < 5 → t.sr.getLsbD i = (s.sr.getLsbD i && imm16.getLsbD i)) ∧
    (∀ i, i < 5 → t.ft.getLsbD i = if imm16.getLsbD i then s.ft.getLsbD i else false) ∧
    t.sr.extractLsb' 5 3 = 0 ∧ t.sr.extractLsb' 8 8 = s.sr.extractLsb' 8 8 ∧
    t = { s with sr := t.sr, ft := t.ft, cycles := 8 }

/-- `EORI #imm,CCR` completes in every state: flags whose immediate bit is 1 are inverted, no flag taint changes (45 R200,
R203); twice with one immediate restores the flags and the taints (R204 (b)). -/
def Obligations.EoriCcrInvertsFlags : Prop :=
  ∀ (imm16 : BitVec 16) (s : State), ∃ t, exec (.eoriCcr imm16) s = .next t ∧
    (∀ i, i < 5 → t.sr.getLsbD i = (s.sr.getLsbD i ^^ imm16.getLsbD i)) ∧ t.ft = s.ft ∧
    t.sr.extractLsb' 5 3 = 0 ∧ t.sr.extractLsb' 8 8 = s.sr.extractLsb' 8 8 ∧
    t = { s with sr := t.sr, ft := t.ft, cycles := 8 } ∧
    ∃ u, exec (.eoriCcr imm16) t = .next u ∧ u.flags = s.flags ∧ u.ft = s.ft
end

