-- ==== Sys2Proof/Laws/Decode.lean ====
section
/-! SUPPORT. Laws of the decoder and the encoder (30_encoding.md): what a populated opcode word's fields are, that what
decodes is well formed, and the pieces of the round trip. -/

namespace Sys2Proof

/-- An opcode word built from its fields selects its form and gives the fields back (R82, R83, R89). -/
theorem orWord_fields (sz : Size) : ∀ dn mode reg : RegNo,
    ((Form.orToReg sz).eaLegal mode reg = true →
      let w := (Form.orToReg sz).pattern ||| placeField dn 9 ||| placeField mode 3 ||| placeField reg 0
      dispatchTable w = some (.orToReg sz) ∧ field3 w 9 = dn ∧ field3 w 3 = mode ∧ field3 w 0 = reg) ∧
    ((Form.orToEa sz).eaLegal mode reg = true →
      let w := (Form.orToEa sz).pattern ||| placeField dn 9 ||| placeField mode 3 ||| placeField reg 0
      dispatchTable w = some (.orToEa sz) ∧ field3 w 9 = dn ∧ field3 w 3 = mode ∧ field3 w 0 = reg) := by
  cases sz <;> decide +kernel

theorem movepWord_fields (long : Bool) : ∀ dx ay : RegNo,
    (let w := movepOpcode (.movepToReg long) dx ay
     dispatchTable w = some (.movepToReg long) ∧ field3 w 9 = dx ∧ field3 w 0 = ay) ∧
    (let w := movepOpcode (.movepToMem long) dx ay
     dispatchTable w = some (.movepToMem long) ∧ field3 w 9 = dx ∧ field3 w 0 = ay) := by
  cases long <;> decide +kernel

theorem ccrWord_dispatch : dispatchTable 0x003C = some .oriCcr ∧ dispatchTable 0x023C = some .andiCcr ∧
    dispatchTable 0x0A3C = some .eoriCcr := by decide +kernel

/-- A populated word comes from a row of R89 that it selects. -/
theorem dispatchTable_row {w : Word} {f : Form} (h : dispatchTable w = some f) :
    ∃ r ∈ rows, r.form = f ∧ r.selects w = true := by
  unfold dispatchTable at h
  cases hf : rows.find? (·.selects w) with
  | none => simp [hf] at h
  | some r =>
    rw [hf] at h
    exact ⟨r, List.mem_of_find?_eq_some hf, Option.some.inj h, by simpa using List.find?_some hf⟩

/-- The EA fields of a populated word are legal for its form (R89). -/
theorem dispatchTable_eaLegal {w : Word} {f : Form} (h : dispatchTable w = some f) :
    f.eaLegal (field3 w 3) (field3 w 0) = true := by
  obtain ⟨r, -, rfl, hs⟩ := dispatchTable_row h
  simp only [Row.selects, Bool.and_eq_true] at hs
  exact hs.2

/-- Every row's form has the row's `match` as its pattern: the table and the encoder agree. -/
theorem rows_pattern : ∀ r ∈ rows, r.form.pattern = r.pattern := by decide

/-- Legal EA fields decode to a legal operand, whatever the extension words. -/
theorem decodeEa_legal (sz : Size) (mode reg : RegNo) (x0 x1 : Word) :
    ((Form.orToReg sz).eaLegal mode reg = true →
      (decodeEa sz mode reg x0 x1).isSource = true ∧ (decodeEa sz mode reg x0 x1).immFits sz = true) ∧
    ((Form.orToEa sz).eaLegal mode reg = true → (decodeEa sz mode reg x0 x1).isDest = true) := by
  have himm : (Ea.imm (if sz = .long then longOfWords x0 x1 else x0.setWidth 32)).immFits sz = true := by
    by_cases h : sz = .long
    · simp [Ea.immFits, h]
    · have := x0.isLt
      simp [Ea.immFits, h]; omega
  match mode, reg with
  | 0, _ | 2, _ | 3, _ | 4, _ | 5, _ | 6, _ => exact ⟨fun _ => ⟨rfl, rfl⟩, by first | exact fun _ => rfl | exact fun h => nomatch h⟩
  | 1, _ => exact ⟨fun h => (by cases h), fun h => (by cases h)⟩
  | 7, 0 | 7, 1 => exact ⟨fun _ => ⟨rfl, rfl⟩, fun _ => rfl⟩
  | 7, 2 | 7, 3 => exact ⟨fun _ => ⟨rfl, rfl⟩, fun h => (by cases h)⟩
  | 7, 4 => exact ⟨fun _ => ⟨rfl, himm⟩, fun h => (by cases h)⟩
  | 7, 5 | 7, 6 | 7, 7 => exact ⟨fun h => (by cases h), fun h => (by cases h)⟩

/-- What a populated word decodes to is well formed and of the word's form. -/
theorem decodeForm_wf {w : Word} {f : Form} (h : dispatchTable w = some f) (x0 x1 : Word) :
    (decodeForm f w x0 x1).wf = true ∧ (decodeForm f w x0 x1).form = f := by
  have hl := dispatchTable_eaLegal h
  have hd := fun sz => decodeEa_legal sz (field3 w 3) (field3 w 0) x0 x1
  cases f with
  | orToReg sz =>
    have := (hd sz).1 hl
    cases sz <;> exact ⟨by simp [decodeForm, Instr.wf, this], rfl⟩
  | orToEa sz =>
    have := (hd sz).2 hl
    cases sz <;> exact ⟨by simp [decodeForm, Instr.wf, this], rfl⟩
  | movepToReg l => cases l <;> exact ⟨rfl, rfl⟩
  | movepToMem l => cases l <;> exact ⟨rfl, rfl⟩
  | oriCcr => exact ⟨rfl, rfl⟩
  | andiCcr => exact ⟨rfl, rfl⟩
  | eoriCcr => exact ⟨rfl, rfl⟩

/-- What `decodeWords` answers: a populated opcode word, the extension words it calls for, and the instruction they
make. -/
theorem decodeWords_ok {ws : List Word} {i : Instr} {rest : List Word} (h : decodeWords ws = .ok (i, rest)) :
    ∃ w xs f, ws = w :: xs ∧ dispatchTable w = some f ∧ f.extWords w ≤ xs.length ∧
      i = decodeForm f w (xs.getD 0 0) (xs.getD 1 0) ∧ rest = xs.drop (f.extWords w) := by
  unfold decodeWords at h
  split at h
  · cases h
  · next w xs =>
    split at h
    · cases h
    · next f hf =>
      split at h
      · cases h
      · next hl =>
        cases h
        exact ⟨w, xs, f, rfl, hf, Nat.le_of_not_lt hl, rfl, rfl⟩

/-- The words of a populated opcode word and at least its extension words decode. -/
theorem decodeWords_cons {w : Word} {xs : List Word} {f : Form} (hf : dispatchTable w = some f)
    (hl : f.extWords w ≤ xs.length) :
    decodeWords (w :: xs) = .ok (decodeForm f w (xs.getD 0 0) (xs.getD 1 0), xs.drop (f.extWords w)) := by
  simp only [decodeWords, hf, if_neg (Nat.not_lt.2 hl)]

/-- What decodes is well formed. -/
theorem decodeWords_wf {ws : List Word} {i : Instr} {rest : List Word} (h : decodeWords ws = .ok (i, rest)) :
    i.wf = true := by
  obtain ⟨w, xs, f, -, hf, -, rfl, -⟩ := decodeWords_ok h
  exact (decodeForm_wf hf _ _).1

/-! ### Rebuilding an opcode word -/

/-- Placing a field where it was read gives those bits of the word. -/
theorem placeField_field3 (w : Word) (lo i : Nat) (hi : i < 16) :
    (placeField (field3 w lo) lo).getLsbD i = (w.getLsbD i && decide (lo ≤ i ∧ i < lo + 3)) := by
  have e : BitVec.ofNat 16 (field3 w lo).val = (w.extractLsb' lo 3).setWidth 16 := by
    apply BitVec.eq_of_toNat_eq
    simp [field3]
  simp only [placeField, e, BitVec.getLsbD_shiftLeft, BitVec.getLsbD_setWidth, BitVec.getLsbD_extractLsb', hi]
  by_cases h1 : i < lo
  · simp [h1]
  · have e2 : lo + (i - lo) = i := by omega
    by_cases h2 : i - lo < 3
    · have h3 : i < 16 := hi
      simp [h1, h2, e2, show lo ≤ i by omega, show i < lo + 3 by omega, show i - lo < 16 by omega]
    · simp [h1, h2, show ¬ (i < lo + 3) by omega]

/-- An opcode word is its fixed bits and its fields (R82, R83). -/
theorem orWord_rebuild (w : Word) :
    (w &&& 0xF1C0) ||| placeField (field3 w 9) 9 ||| placeField (field3 w 3) 3 ||| placeField (field3 w 0) 0 = w := by
  apply BitVec.eq_of_getLsbD_eq
  intro i hi
  simp only [BitVec.getLsbD_or, BitVec.getLsbD_and, placeField_field3 w 9 i hi,
    placeField_field3 w 3 i hi, placeField_field3 w 0 i hi]
  have : ∀ j : Fin 16, ∀ b : Bool, (b && (0xF1C0 : Word).getLsbD j.val || b && decide (9 ≤ j.val ∧ j.val < 9 + 3) ||
      b && decide (3 ≤ j.val ∧ j.val < 3 + 3) || b && decide (0 ≤ j.val ∧ j.val < 0 + 3)) = b := by decide
  exact this ⟨i, hi⟩ _

theorem movepWord_rebuild (w : Word) :
    (w &&& 0xF1F8) ||| placeField (field3 w 9) 9 ||| placeField (field3 w 0) 0 = w := by
  apply BitVec.eq_of_getLsbD_eq
  intro i hi
  simp only [BitVec.getLsbD_or, BitVec.getLsbD_and, placeField_field3 w 9 i hi,
    placeField_field3 w 0 i hi]
  have : ∀ j : Fin 16, ∀ b : Bool, (b && (0xF1F8 : Word).getLsbD j.val || b && decide (9 ≤ j.val ∧ j.val < 9 + 3) ||
      b && decide (0 ≤ j.val ∧ j.val < 0 + 3)) = b := by decide
  exact this ⟨i, hi⟩ _

/-! ### The two directions of an EA field and its extension words -/

theorem decodeEa_mode_reg (sz : Size) : ∀ (mode reg : RegNo) (x0 x1 : Word),
    (decodeEa sz mode reg x0 x1).mode = mode ∧ (decodeEa sz mode reg x0 x1).reg = reg := by
  intro mode reg x0 x1
  obtain ⟨m, hm⟩ := mode
  obtain ⟨r, hr⟩ := reg
  interval_cases m <;> first
    | exact ⟨rfl, rfl⟩
    | (interval_cases r <;> exact ⟨rfl, rfl⟩)

theorem append_bit {n m : Nat} (x : BitVec n) (y : BitVec m) (i : Nat) :
    (x ++ y).getLsbD i = if i < m then y.getLsbD i else x.getLsbD (i - m) := by
  rw [BitVec.getLsbD_append]

/-- The index extension word, bit by bit (R86). -/
theorem encodeIndex_bit (x : IndexWord) (i : Nat) :
    (encodeIndex x).getLsbD i =
      if i < 8 then x.d8.getLsbD i
      else if i - 8 < 3 then x.ignored.getLsbD (i - 8)
      else if i - 8 - 3 < 1 then (BitVec.ofBool x.whole).getLsbD (i - 8 - 3)
      else if i - 8 - 3 - 1 < 3 then (BitVec.ofNat 3 x.xr.val).getLsbD (i - 8 - 3 - 1)
      else (BitVec.ofBool x.isAddr).getLsbD (i - 8 - 3 - 1 - 3) :=
  (append_bit _ _ i).trans (by rw [append_bit, append_bit, append_bit])

theorem longOfWords_bit (hi lo : Word) (i : Nat) :
    (longOfWords hi lo).getLsbD i = if i < 16 then lo.getLsbD i else hi.getLsbD (i - 16) := append_bit hi lo i

theorem ofNat_field3 (x : Word) (lo : Nat) : BitVec.ofNat 3 (field3 x lo).val = x.extractLsb' lo 3 := by
  apply BitVec.eq_of_toNat_eq
  simp [field3]

theorem encodeIndex_decodeIndex (x : Word) : encodeIndex (decodeIndex x) = x := by
  apply BitVec.eq_of_getLsbD_eq
  intro i hi
  simp only [encodeIndex_bit, decodeIndex, ofNat_field3]
  interval_cases i <;> simp

theorem decodeIndex_encodeIndex (x : IndexWord) : decodeIndex (encodeIndex x) = x := by
  have h2 : (encodeIndex x).extractLsb' 12 3 = BitVec.ofNat 3 x.xr.val := by
    apply BitVec.eq_of_getLsbD_eq
    intro i hi
    simp only [BitVec.getLsbD_extractLsb', encodeIndex_bit]
    interval_cases i <;> simp
  have h4 : (encodeIndex x).extractLsb' 8 3 = x.ignored := by
    apply BitVec.eq_of_getLsbD_eq
    intro i hi
    simp only [BitVec.getLsbD_extractLsb', encodeIndex_bit]
    interval_cases i <;> simp
  have h5 : (encodeIndex x).extractLsb' 0 8 = x.d8 := by
    apply BitVec.eq_of_getLsbD_eq
    intro i hi
    simp only [BitVec.getLsbD_extractLsb', encodeIndex_bit]
    simp [hi]
  have h6 : field3 (encodeIndex x) 12 = x.xr := by
    apply Fin.ext
    show ((encodeIndex x).extractLsb' 12 3).toNat = x.xr.val
    rw [h2]; simp
  simp only [decodeIndex, h4, h5, h6, encodeIndex_bit]
  simp

theorem wordsOfLong_longOfWords (hi lo : Word) : wordsOfLong (longOfWords hi lo) = [hi, lo] := by
  have h1 : (longOfWords hi lo).extractLsb' 16 16 = hi := by
    apply BitVec.eq_of_getLsbD_eq
    intro i h
    simp only [BitVec.getLsbD_extractLsb', longOfWords_bit]
    simp [h]
  have h2 : (longOfWords hi lo).extractLsb' 0 16 = lo := by
    apply BitVec.eq_of_getLsbD_eq
    intro i h
    simp only [BitVec.getLsbD_extractLsb', longOfWords_bit]
    simp [h]
  rw [wordsOfLong, h1, h2]

theorem longOfWords_wordsOfLong (v : BitVec 32) : longOfWords (v.extractLsb' 16 16) (v.extractLsb' 0 16) = v := by
  apply BitVec.eq_of_getLsbD_eq
  intro i h
  rw [longOfWords_bit]
  by_cases h1 : i < 16
  · simp [h1]
  · simp [h1, show i - 16 < 16 by omega, show 16 + (i - 16) = i by omega]

/-- The extension words of an operand are as many as its EA field says (R85). -/
theorem length_extWords (sz : Size) (ea : Ea) (h : ea.isSource = true) :
    (ea.extWords sz).length = eaExtWords sz ea.mode ea.reg := by
  cases ea <;> first
    | (cases sz <;> rfl)
    | cases h

/-- The extension words that an EA field decodes from are the ones its operand encodes to. -/
theorem extWords_decodeEa (sz : Size) (mode reg : RegNo) (x0 x1 : Word)
    (h : (decodeEa sz mode reg x0 x1).isSource = true) :
    (decodeEa sz mode reg x0 x1).extWords sz = [x0, x1].take (eaExtWords sz mode reg) := by
  obtain ⟨m, hm⟩ := mode
  obtain ⟨r, hr⟩ := reg
  have hx := encodeIndex_decodeIndex x0
  have hl := wordsOfLong_longOfWords x0 x1
  have hw : (x0.setWidth 32).extractLsb' 0 16 = x0 := by
    apply BitVec.eq_of_getLsbD_eq
    intro i hi
    simp [hi, show i < 32 by omega]
  interval_cases m
  all_goals first
    | rfl
    | (simp only [decodeEa, Ea.extWords, eaExtWords, hx]; rfl)
    | skip
  interval_cases r
  all_goals first
    | rfl
    | (simp only [decodeEa, Ea.extWords, eaExtWords, hx, hl]; rfl)
    | (cases sz <;> simp [decodeEa, Ea.extWords, eaExtWords, hw, hl])

/-- A legal operand decodes from its own EA field and extension words. -/
theorem decodeEa_extWords (sz : Size) (ea : Ea) (rest : List Word) (h : ea.isSource = true) (hi : ea.immFits sz = true) :
    decodeEa sz ea.mode ea.reg ((ea.extWords sz ++ rest).getD 0 0) ((ea.extWords sz ++ rest).getD 1 0) = ea := by
  cases ea with
  | dReg r => rfl
  | aReg r => cases h
  | ind r => rfl
  | postInc r => rfl
  | preDec r => rfl
  | disp r d => rfl
  | index r x => simp [Ea.extWords, Ea.mode, Ea.reg, decodeEa, decodeIndex_encodeIndex]
  | absW w => rfl
  | absL a => exact congrArg Ea.absL (longOfWords_wordsOfLong a)
  | pcDisp d => rfl
  | pcIndex x => simp [Ea.extWords, Ea.mode, Ea.reg, decodeEa, decodeIndex_encodeIndex]
  | unnamed r => cases h
  | imm v =>
    cases sz
    case long => exact congrArg Ea.imm (longOfWords_wordsOfLong v)
    all_goals
      have hv : v.toNat < 65536 := by simpa [Ea.immFits] using hi
      have : (v.extractLsb' 0 16).setWidth 32 = v := by
        apply BitVec.eq_of_toNat_eq
        simp; omega
      exact congrArg Ea.imm this

/-- The fixed bits of a populated word (R89). -/
theorem dispatchTable_fixedBits {w : Word} {f : Form} (h : dispatchTable w = some f) :
    match f with
    | .orToReg _ | .orToEa _ => w &&& 0xF1C0 = f.pattern
    | .movepToReg _ | .movepToMem _ => w &&& 0xF1F8 = f.pattern
    | .oriCcr | .andiCcr | .eoriCcr => w = f.pattern := by
  obtain ⟨r, hr, rfl, hs⟩ := dispatchTable_row h
  have hm : w &&& r.mask = r.pattern := by
    simp only [Row.selects, Bool.and_eq_true] at hs
    exact eq_of_beq hs.1
  have hall : w &&& 0xFFFF = w := by
    apply BitVec.eq_of_getLsbD_eq
    intro i hi
    have : ∀ j : Fin 16, (0xFFFF : Word).getLsbD j.val = true := by decide
    rw [BitVec.getLsbD_and, this ⟨i, hi⟩, Bool.and_true]
  simp only [rows, List.mem_append, List.mem_cons, List.not_mem_nil, or_false] at hr
  rcases hr with ((rfl | rfl | rfl | rfl | rfl | rfl) | (rfl | rfl | rfl | rfl)) | (rfl | rfl | rfl) <;>
    first
    | exact hm
    | (rw [hall] at hm; exact hm)

end Sys2Proof
end

