-- ==== Sys2Proof/Laws/Tainted.lean ====
section
/-! SUPPORT. Laws of tainted values: the narrow access of 10_state.md R24, lanes, and the taint of a combination
(42_alu_and_flags.md R159). -/

namespace Sys2Proof.TV

variable {n m : Nat}

theorem ext_parts {v w : TV n} (hv : v.val = w.val) (ht : v.t = w.t) : v = w := by
  cases v; cases w; simp_all

/-- What was written narrowly is what a read of the same width gives. -/
theorem low_setLow (slot : TV n) (v : TV m) (h : m ≤ n) : (slot.setLow v).low m = v := by
  apply ext_parts
  · apply BitVec.eq_of_getLsbD_eq
    intro i hi
    have : i < 8 * n := by omega
    simp [low, setLow, hi, this]
  · apply BitVec.eq_of_getLsbD_eq
    intro i hi
    have : i < n := by omega
    simp [low, setLow, hi, this]

/-- A narrow write leaves the bytes above it. -/
theorem setLow_val_above (slot : TV n) (v : TV m) : (slot.setLow v).val >>> (8 * m) = slot.val >>> (8 * m) := by
  apply BitVec.eq_of_getLsbD_eq
  intro i hi
  by_cases h : 8 * m + i < 8 * n
  · simp [setLow, h]
  · simp [BitVec.getLsbD_of_ge _ _ (Nat.le_of_not_lt h)]

/-- A narrow write leaves the taint bits above it. -/
theorem setLow_t_above (slot : TV n) (v : TV m) : (slot.setLow v).t >>> m = slot.t >>> m := by
  apply BitVec.eq_of_getLsbD_eq
  intro i hi
  by_cases h : m + i < n
  · simp [setLow, h]
  · simp [BitVec.getLsbD_of_ge _ _ (Nat.le_of_not_lt h)]

/-- A full-width write replaces the slot. -/
theorem setLow_full (slot v : TV n) : slot.setLow v = v := by
  have := low_setLow slot v (Nat.le_refl n)
  simpa [low] using this

/-- The most significant lane of `push`. -/
theorem lane_push_top (hi : TV 1) (lo : TV n) : (hi.push lo).lane n = hi := by
  apply ext_parts
  · apply BitVec.eq_of_getLsbD_eq
    intro i h
    have h8 : i < 8 := by omega
    have h2 : 8 * n + i < 8 * (n + 1) := by omega
    simp [push, lane, h8, h2]
  · apply BitVec.eq_of_getLsbD_eq
    intro i h
    have h1 : i < 1 := h
    have h0 : i = 0 := by omega
    subst h0
    simp [push, lane]

/-- The lanes below the most significant one. -/
theorem lane_push_lower (hi : TV 1) (lo : TV n) {k : Nat} (hk : k < n) : (hi.push lo).lane k = lo.lane k := by
  apply ext_parts
  · apply BitVec.eq_of_getLsbD_eq
    intro i h
    have h8 : i < 8 := by omega
    have h2 : 8 * k + i < 8 * n := by omega
    have h3 : 8 * k + i < 8 * (n + 1) := by omega
    simp [push, lane, h8, h2, h3]
  · apply BitVec.eq_of_getLsbD_eq
    intro i h
    have h0 : i = 0 := by omega
    subst h0
    have h3 : k < n + 1 := by omega
    simp [push, lane, hk, h3]

/-- Two values with the same lanes are the same value. -/
theorem ext_lanes {v w : TV n} (h : ∀ k, k < n → v.lane k = w.lane k) : v = w := by
  apply ext_parts
  · apply BitVec.eq_of_getLsbD_eq
    intro i hi
    have hk := h (i / 8) (by omega)
    have hv := congrArg (fun x : TV 1 => x.val.getLsbD (i % 8)) hk
    have e : 8 * (i / 8) + i % 8 = i := by omega
    have h8 : i % 8 < 8 := Nat.mod_lt _ (by decide)
    simpa [lane, h8, e] using hv
  · apply BitVec.eq_of_getLsbD_eq
    intro i hi
    have ht := congrArg (fun x : TV 1 => x.t.getLsbD 0) (h i hi)
    simpa [lane] using ht

theorem tainted_smear (b : Bool) (x : BitVec (8 * (n + 1))) : (⟨x, smear b (n + 1)⟩ : TV (n + 1)).tainted = b := by
  cases b
  · simp [tainted, smear]
  · have : BitVec.allOnes (n + 1) ≠ 0#(n + 1) := by
      intro h
      have := congrArg (fun v => v.getLsbD 0) h
      simp at this
    simp [tainted, smear, this]

theorem smear_false : smear false n = 0 := rfl

theorem tainted_eq_false {v : TV n} : v.tainted = false ↔ v.t = 0 := by simp [tainted]

/-- A value is untainted when each of its lanes is, and the other way round. -/
theorem t_eq_zero_of_lanes {v : TV n} (h : ∀ k, k < n → (v.lane k).t = 0) : v.t = 0 := by
  apply BitVec.eq_of_getLsbD_eq
  intro i hi
  have := congrArg (fun x => x.getLsbD 0) (h i hi)
  simpa [lane] using this

theorem lane_t_eq_zero {v : TV n} (h : v.t = 0) (k : Nat) : (v.lane k).t = 0 := by simp [lane, h]

theorem low_t_eq_zero {v : TV n} (h : v.t = 0) : (v.low m).t = 0 := by simp [low, h]

theorem setLow_t_eq_zero {v : TV n} {w : TV m} (h : v.t = 0) (h' : w.t = 0) : (v.setLow w).t = 0 := by
  simp [setLow, h, h']

end Sys2Proof.TV
end

