-- ==== Sys2Proof/Laws/Memory.lean ====
section
/-! SUPPORT. Laws of the reference memory (20_memory.md R68): read after write, frame, and the canonical form that every
operation keeps. -/

namespace Sys2Proof.Machine

/-! ### Cell lists -/

/-- The list's addresses rise strictly. -/
abbrev Rising (l : List (Nat × TV 1)) : Prop := l.Pairwise (fun c e => c.1 < e.1)

theorem lookupCell_of_lt {l : List (Nat × TV 1)} {a : Nat} (h : ∀ c ∈ l, a < c.1) : lookupCell l a = unlistedCell := by
  induction l with
  | nil => rfl
  | cons c l ih =>
    obtain ⟨b, w⟩ := c
    have hb : a ≠ b := Nat.ne_of_lt (h (b, w) (by simp))
    simp [lookupCell, hb, ih fun c hc => h c (by simp [hc])]

/-- Writing one cell leaves every other. -/
theorem lookupCell_putCell_ne (a b : Nat) (v : TV 1) (h : b ≠ a) (l : List (Nat × TV 1)) :
    lookupCell (putCell a v l) b = lookupCell l b := by
  induction l with
  | nil => unfold putCell; split <;> simp [lookupCell, h]
  | cons c l ih =>
    obtain ⟨k, w⟩ := c
    unfold putCell
    split
    · split <;> simp [lookupCell, h]
    · split
      · next e => subst e; split <;> simp [lookupCell, h]
      · simp [lookupCell, ih]

/-- A cell reads as what was written to it. -/
theorem lookupCell_putCell_self (a : Nat) (v : TV 1) (l : List (Nat × TV 1)) (hl : Rising l) :
    lookupCell (putCell a v l) a = v := by
  induction l with
  | nil => unfold putCell; split <;> simp_all [lookupCell]
  | cons c l ih =>
    obtain ⟨k, w⟩ := c
    have hrest := List.pairwise_cons.1 hl
    unfold putCell
    split
    · next hlt =>
      split
      · next hv =>
        rw [hv]
        exact lookupCell_of_lt fun c hc => by
          rcases List.mem_cons.1 hc with rfl | hc
          · exact hlt
          · exact Nat.lt_trans hlt (hrest.1 c hc)
      · simp [lookupCell]
    · split
      · next e =>
        subst e
        split
        · next hv => rw [hv]; exact lookupCell_of_lt fun c hc => hrest.1 c hc
        · simp [lookupCell]
      · next h1 h2 => simp [lookupCell, h2, ih hrest.2]

/-- Every entry after a write is an old one or the one written. -/
theorem mem_putCell {a : Nat} {v : TV 1} {l : List (Nat × TV 1)} {c : Nat × TV 1} (h : c ∈ putCell a v l) :
    c ∈ l ∨ (c = (a, v) ∧ v ≠ unlistedCell) := by
  induction l with
  | nil => unfold putCell at h; split at h <;> simp_all
  | cons e l ih =>
    obtain ⟨k, w⟩ := e
    unfold putCell at h
    split at h
    · split at h
      · exact .inl h
      · rcases List.mem_cons.1 h with rfl | h
        · exact .inr ⟨rfl, ‹_›⟩
        · exact .inl h
    · split at h
      · split at h
        · exact .inl (List.mem_cons_of_mem _ h)
        · rcases List.mem_cons.1 h with rfl | h
          · exact .inr ⟨rfl, ‹_›⟩
          · exact .inl (List.mem_cons_of_mem _ h)
      · rcases List.mem_cons.1 h with rfl | h
        · exact .inl (by simp)
        · rcases ih h with h | h
          · exact .inl (List.mem_cons_of_mem _ h)
          · exact .inr h

theorem rising_putCell (a : Nat) (v : TV 1) {l : List (Nat × TV 1)} (hl : Rising l) : Rising (putCell a v l) := by
  induction l with
  | nil => unfold putCell; split <;> simp [Rising]
  | cons c l ih =>
    obtain ⟨k, w⟩ := c
    have hrest := List.pairwise_cons.1 hl
    unfold putCell
    split
    · next hlt =>
      split
      · exact hl
      · refine List.pairwise_cons.2 ⟨fun e he => ?_, hl⟩
        rcases List.mem_cons.1 he with rfl | he
        · exact hlt
        · exact Nat.lt_trans hlt (hrest.1 e he)
    · split
      · next e =>
        subst e
        split
        · exact hrest.2
        · exact List.pairwise_cons.2 ⟨hrest.1, hrest.2⟩
      · next h1 h2 =>
        refine List.pairwise_cons.2 ⟨fun e he => ?_, ih hrest.2⟩
        rcases mem_putCell he with he | ⟨rfl, -⟩
        · exact hrest.1 e he
        · show k < a; omega

/-! ### Memory -/

@[simp] theorem setCell_map (m : Memory) (a : Addr) (v : TV 1) : (m.setCell a v).map = m.map := rfl

@[simp] theorem setCell_mapped (m : Memory) (a : Addr) (v : TV 1) (b : Nat) : (m.setCell a v).mapped b = m.mapped b := rfl

theorem cell_setCell_ne (m : Memory) {a b : Addr} (v : TV 1) (h : b ≠ a) : (m.setCell a v).cell b = m.cell b :=
  lookupCell_putCell_ne _ _ _ (fun e => h (BitVec.eq_of_toNat_eq e)) _

theorem cell_setCell_self {m : Memory} (hm : m.wf) (a : Addr) (v : TV 1) : (m.setCell a v).cell a = v :=
  lookupCell_putCell_self _ _ _ hm.2.1

/-- Writing a mapped cell keeps the canonical form. -/
theorem setCell_wf {m : Memory} (hm : m.wf) {a : Addr} (ha : m.mapped a.toNat = true) (v : TV 1) : (m.setCell a v).wf := by
  refine ⟨hm.1, rising_putCell _ _ hm.2.1, fun c hc => ?_⟩
  rcases mem_putCell hc with hc | ⟨rfl, hv⟩
  · exact hm.2.2 c hc
  · exact ⟨a.isLt, ha, hv⟩

variable {n : Nat}

@[simp] theorem storeBytes_map (m : Memory) (a : Addr) (v : TV n) (k : Nat) : (m.storeBytes a v k).map = m.map := by
  induction k generalizing m a with
  | zero => rfl
  | succ k ih => simp [Memory.storeBytes, ih]

theorem mapped_congr {m m' : Memory} (h : m.map = m'.map) (b : Nat) : m.mapped b = m'.mapped b := by
  simp [Memory.mapped, h]

theorem allMapped_congr {m m' : Memory} (h : m.map = m'.map) (a : Addr) (k : Nat) : m.allMapped a k = m'.allMapped a k := by
  induction k generalizing a with
  | zero => rfl
  | succ k ih => simp [Memory.allMapped, ih, mapped_congr h]

theorem accepts_congr {m m' : Memory} (h : m.map = m'.map) (a : Addr) (k : Nat) : m.accepts a k = m'.accepts a k := by
  simp [Memory.accepts, allMapped_congr h]

theorem offset_succ (a : Addr) (i : Nat) : a + BitVec.ofNat 32 (i + 1) = a + 1 + BitVec.ofNat 32 i := by
  rw [BitVec.ofNat_add, BitVec.add_comm (BitVec.ofNat 32 i), ← BitVec.add_assoc]; rfl

theorem setCell_allMapped (m : Memory) (a b : Addr) (v : TV 1) (k : Nat) :
    (m.setCell a v).allMapped b k = m.allMapped b k := allMapped_congr (setCell_map m a v) b k

/-- A cell that no stored byte falls on is left alone. -/
theorem cell_storeBytes_outside (m : Memory) (a b : Addr) (v : TV n) (k : Nat) (h : ∀ i, i < k → b ≠ a + BitVec.ofNat 32 i) :
    (m.storeBytes a v k).cell b = m.cell b := by
  induction k generalizing m a with
  | zero => rfl
  | succ k ih =>
    have h0 : b ≠ a := by simpa using h 0 (by omega)
    rw [Memory.storeBytes, ih, cell_setCell_ne _ _ h0]
    intro i hi
    have := h (i + 1) (by omega)
    rwa [offset_succ] at this

/-- An accepted store keeps the canonical form. -/
theorem storeBytes_wf {m : Memory} (hm : m.wf) {a : Addr} {k : Nat} (v : TV n) (ha : m.allMapped a k = true) :
    (m.storeBytes a v k).wf := by
  induction k generalizing m a with
  | zero => exact hm
  | succ k ih =>
    simp only [Memory.allMapped, Bool.and_eq_true] at ha
    exact ih (setCell_wf hm ha.1 _) (by rw [setCell_allMapped]; exact ha.2)

theorem offset_ne {a : Addr} {i j : Nat} (hi : i < 2 ^ 32) (hj : j < 2 ^ 32) (h : i ≠ j) :
    a + BitVec.ofNat 32 i ≠ a + BitVec.ofNat 32 j := by
  intro e
  have := (BitVec.add_right_inj a).1 e
  have := congrArg BitVec.toNat this
  simp only [BitVec.toNat_ofNat, Nat.mod_eq_of_lt hi, Nat.mod_eq_of_lt hj] at this
  exact h this

/-- The cell `i` of a stored value holds its lane `k - 1 - i` (R54, R68). -/
theorem cell_storeBytes_inside {m : Memory} (hm : m.wf) {a : Addr} (v : TV n) {k : Nat} (ha : m.allMapped a k = true)
    (hk : k ≤ 2 ^ 32) {i : Nat} (hi : i < k) :
    (m.storeBytes a v k).cell (a + BitVec.ofNat 32 i) = v.lane (k - 1 - i) := by
  induction k generalizing m a i with
  | zero => omega
  | succ k ih =>
    simp only [Memory.allMapped, Bool.and_eq_true] at ha
    rw [Memory.storeBytes]
    cases i with
    | zero =>
      rw [cell_storeBytes_outside]
      · simpa using cell_setCell_self hm a (v.lane k)
      · intro j hj
        have := offset_ne (a := a) (i := 0) (j := j + 1) (by omega) (by omega) (by omega)
        rw [offset_succ] at this
        simpa using this
    | succ i =>
      have := ih (setCell_wf hm ha.1 (v.lane k)) (a := a + 1)
        (by rw [setCell_allMapped]; exact ha.2) (by omega) (i := i) (by omega)
      rw [offset_succ, this]
      congr 1
      omega

/-- Lane `k` of a loaded value is the cell it lies in, big-endian (R52, R53). -/
theorem lane_loadBytes (m : Memory) (a : Addr) {n k : Nat} (hk : k < n) :
    (m.loadBytes a n).lane k = m.cell (a + BitVec.ofNat 32 (n - 1 - k)) := by
  induction n generalizing a with
  | zero => omega
  | succ n ih =>
    rw [Memory.loadBytes]
    by_cases h : k = n
    · subst h; rw [TV.lane_push_top]; simp
    · rw [TV.lane_push_lower _ _ (by omega), ih _ (by omega)]
      have e : n + 1 - 1 - k = (n - 1 - k) + 1 := by omega
      rw [e, offset_succ]

/-- A read gives back the value and taint that were stored there (R54, R141). -/
theorem loadBytes_storeBytes {m : Memory} (hm : m.wf) {a : Addr} (v : TV n) (ha : m.allMapped a n = true) (hn : n ≤ 2 ^ 32) :
    (m.storeBytes a v n).loadBytes a n = v := by
  apply TV.ext_lanes
  intro k hk
  rw [lane_loadBytes _ _ hk, cell_storeBytes_inside hm v ha hn (by omega)]
  congr 1
  omega

/-- A load depends only on the cells it reads. -/
theorem loadBytes_congr {m m' : Memory} {a : Addr} {n : Nat}
    (h : ∀ i, i < n → m.cell (a + BitVec.ofNat 32 i) = m'.cell (a + BitVec.ofNat 32 i)) :
    m.loadBytes a n = m'.loadBytes a n := by
  apply TV.ext_lanes
  intro k hk
  rw [lane_loadBytes _ _ hk, lane_loadBytes _ _ hk, h _ (by omega)]

/-! ### Port operations -/

theorem memRead_ok {s s' : State} {k : AccessKind} {a : Addr} {v : TV n} (h : s.memRead k a n = .ok (v, s')) :
    s.mem.accepts a n = true ∧ v = s.mem.loadBytes a n ∧ s' = s.logOp k a n := by
  unfold State.memRead at h
  split at h
  · next ha => cases h; exact ⟨ha, rfl, rfl⟩
  · cases h

theorem memRead_of_accepts {s : State} (k : AccessKind) {a : Addr} (h : s.mem.accepts a n = true) :
    s.memRead k a n = .ok (s.mem.loadBytes a n, s.logOp k a n) := by simp [State.memRead, h]

theorem memWrite_ok {s s' : State} {a : Addr} {v : TV n} (h : s.memWrite a v = .ok s') :
    s.mem.accepts a n = true ∧ s' = { s.logOp .write a n with mem := s.mem.storeBytes a v n } := by
  unfold State.memWrite at h
  split at h
  · next ha => cases h; exact ⟨ha, rfl⟩
  · cases h

theorem memWrite_of_accepts {s : State} {a : Addr} {v : TV n} (h : s.mem.accepts a n = true) :
    s.memWrite a v = .ok { s.logOp .write a n with mem := s.mem.storeBytes a v n } := by simp [State.memWrite, h]

theorem accepts_allMapped {m : Memory} {a : Addr} {k : Nat} (h : m.accepts a k = true) : m.allMapped a k = true := by
  simp only [Memory.accepts, Bool.and_eq_true] at h
  exact h.2

/-- Every cell of an accepted access is mapped (20 R68). -/
theorem mapped_of_allMapped {m : Memory} {a : Addr} {k i : Nat} (h : m.allMapped a k = true) (hi : i < k) :
    m.mapped (a + BitVec.ofNat 32 i).toNat = true := by
  induction k generalizing a i with
  | zero => omega
  | succ k ih =>
    simp only [Memory.allMapped, Bool.and_eq_true] at h
    cases i with
    | zero => simpa using h.1
    | succ i => rw [offset_succ]; exact ih h.2 (by omega)

/-- An access with an unmapped cell is refused (20 R68). -/
theorem allMapped_of_unmapped {m : Memory} {a : Addr} {k i : Nat} (hi : i < k)
    (h : m.mapped (a + BitVec.ofNat 32 i).toNat = false) : m.allMapped a k = false := by
  cases hk : m.allMapped a k with
  | false => rfl
  | true => rw [mapped_of_allMapped hk hi] at h; cases h

end Sys2Proof.Machine
end

