-- ==== Sys2Proof/Laws/State.lean ====
section
/-! SUPPORT. One lemma per field per update of `State`, so that no later proof unfolds a record update. -/

namespace Sys2Proof.Machine

variable {n : Nat} (s : State)

@[simp] theorem logOp_d (k a w) : (s.logOp k a w).d = s.d := rfl
@[simp] theorem logOp_a (k a w) : (s.logOp k a w).a = s.a := rfl
@[simp] theorem logOp_usp (k a w) : (s.logOp k a w).usp = s.usp := rfl
@[simp] theorem logOp_ssp (k a w) : (s.logOp k a w).ssp = s.ssp := rfl
@[simp] theorem logOp_pc (k a w) : (s.logOp k a w).pc = s.pc := rfl
@[simp] theorem logOp_sr (k a w) : (s.logOp k a w).sr = s.sr := rfl
@[simp] theorem logOp_ft (k a w) : (s.logOp k a w).ft = s.ft := rfl
@[simp] theorem logOp_halted (k a w) : (s.logOp k a w).halted = s.halted := rfl
@[simp] theorem logOp_costs (k a w) : (s.logOp k a w).costs = s.costs := rfl
@[simp] theorem logOp_mem (k a w) : (s.logOp k a w).mem = s.mem := rfl
@[simp] theorem logOp_cycles (k a w) : (s.logOp k a w).cycles = s.cycles := rfl
@[simp] theorem logOp_ops (k a w) : (s.logOp k a w).ops = s.ops ++ [⟨k, a, w⟩] := rfl
@[simp] theorem logOp_readD (k a w) (r : RegNo) (m : Nat) : (s.logOp k a w).readD r m = s.readD r m := rfl
@[simp] theorem logOp_getA (k a w) (r : RegNo) : (s.logOp k a w).getA r = s.getA r := rfl

@[simp] theorem writeD_d (r : RegNo) (v : TV n) : (s.writeD r v).d = s.d.set r.val ((s.d.get r).setLow v) r.isLt := rfl
@[simp] theorem writeD_a (r : RegNo) (v : TV n) : (s.writeD r v).a = s.a := rfl
@[simp] theorem writeD_usp (r : RegNo) (v : TV n) : (s.writeD r v).usp = s.usp := rfl
@[simp] theorem writeD_ssp (r : RegNo) (v : TV n) : (s.writeD r v).ssp = s.ssp := rfl
@[simp] theorem writeD_pc (r : RegNo) (v : TV n) : (s.writeD r v).pc = s.pc := rfl
@[simp] theorem writeD_sr (r : RegNo) (v : TV n) : (s.writeD r v).sr = s.sr := rfl
@[simp] theorem writeD_ft (r : RegNo) (v : TV n) : (s.writeD r v).ft = s.ft := rfl
@[simp] theorem writeD_halted (r : RegNo) (v : TV n) : (s.writeD r v).halted = s.halted := rfl
@[simp] theorem writeD_costs (r : RegNo) (v : TV n) : (s.writeD r v).costs = s.costs := rfl
@[simp] theorem writeD_mem (r : RegNo) (v : TV n) : (s.writeD r v).mem = s.mem := rfl
@[simp] theorem writeD_cycles (r : RegNo) (v : TV n) : (s.writeD r v).cycles = s.cycles := rfl
@[simp] theorem writeD_ops (r : RegNo) (v : TV n) : (s.writeD r v).ops = s.ops := rfl
@[simp] theorem writeD_getA (r : RegNo) (v : TV n) (q : RegNo) : (s.writeD r v).getA q = s.getA q := rfl

@[simp] theorem setCycles_d (c) : (s.setCycles c).d = s.d := rfl
@[simp] theorem setCycles_a (c) : (s.setCycles c).a = s.a := rfl
@[simp] theorem setCycles_usp (c) : (s.setCycles c).usp = s.usp := rfl
@[simp] theorem setCycles_ssp (c) : (s.setCycles c).ssp = s.ssp := rfl
@[simp] theorem setCycles_pc (c) : (s.setCycles c).pc = s.pc := rfl
@[simp] theorem setCycles_sr (c) : (s.setCycles c).sr = s.sr := rfl
@[simp] theorem setCycles_ft (c) : (s.setCycles c).ft = s.ft := rfl
@[simp] theorem setCycles_halted (c) : (s.setCycles c).halted = s.halted := rfl
@[simp] theorem setCycles_costs (c) : (s.setCycles c).costs = s.costs := rfl
@[simp] theorem setCycles_mem (c) : (s.setCycles c).mem = s.mem := rfl
@[simp] theorem setCycles_cycles (c) : (s.setCycles c).cycles = c := rfl
@[simp] theorem setCycles_ops (c) : (s.setCycles c).ops = s.ops := rfl
@[simp] theorem setCycles_readD (c) (r : RegNo) (m : Nat) : (s.setCycles c).readD r m = s.readD r m := rfl
@[simp] theorem setCycles_getA (c) (r : RegNo) : (s.setCycles c).getA r = s.getA r := rfl

@[simp] theorem applyFlags_d (u) : (s.applyFlags u).d = s.d := rfl
@[simp] theorem applyFlags_a (u) : (s.applyFlags u).a = s.a := rfl
@[simp] theorem applyFlags_usp (u) : (s.applyFlags u).usp = s.usp := rfl
@[simp] theorem applyFlags_ssp (u) : (s.applyFlags u).ssp = s.ssp := rfl
@[simp] theorem applyFlags_pc (u) : (s.applyFlags u).pc = s.pc := rfl
@[simp] theorem applyFlags_halted (u) : (s.applyFlags u).halted = s.halted := rfl
@[simp] theorem applyFlags_costs (u) : (s.applyFlags u).costs = s.costs := rfl
@[simp] theorem applyFlags_mem (u) : (s.applyFlags u).mem = s.mem := rfl
@[simp] theorem applyFlags_cycles (u) : (s.applyFlags u).cycles = s.cycles := rfl
@[simp] theorem applyFlags_ops (u) : (s.applyFlags u).ops = s.ops := rfl
@[simp] theorem applyFlags_readD (u) (r : RegNo) (m : Nat) : (s.applyFlags u).readD r m = s.readD r m := rfl

@[simp] theorem flagByteWrite_d (op imm) : (s.flagByteWrite op imm).d = s.d := rfl
@[simp] theorem flagByteWrite_a (op imm) : (s.flagByteWrite op imm).a = s.a := rfl
@[simp] theorem flagByteWrite_usp (op imm) : (s.flagByteWrite op imm).usp = s.usp := rfl
@[simp] theorem flagByteWrite_ssp (op imm) : (s.flagByteWrite op imm).ssp = s.ssp := rfl
@[simp] theorem flagByteWrite_pc (op imm) : (s.flagByteWrite op imm).pc = s.pc := rfl
@[simp] theorem flagByteWrite_halted (op imm) : (s.flagByteWrite op imm).halted = s.halted := rfl
@[simp] theorem flagByteWrite_costs (op imm) : (s.flagByteWrite op imm).costs = s.costs := rfl
@[simp] theorem flagByteWrite_mem (op imm) : (s.flagByteWrite op imm).mem = s.mem := rfl
@[simp] theorem flagByteWrite_cycles (op imm) : (s.flagByteWrite op imm).cycles = s.cycles := rfl
@[simp] theorem flagByteWrite_ops (op imm) : (s.flagByteWrite op imm).ops = s.ops := rfl

@[simp] theorem setA_d (r v) : (s.setA r v).d = s.d := by unfold State.setA; split <;> [rfl; (split <;> rfl)]
@[simp] theorem setA_pc (r v) : (s.setA r v).pc = s.pc := by unfold State.setA; split <;> [rfl; (split <;> rfl)]
@[simp] theorem setA_sr (r v) : (s.setA r v).sr = s.sr := by unfold State.setA; split <;> [rfl; (split <;> rfl)]
@[simp] theorem setA_ft (r v) : (s.setA r v).ft = s.ft := by unfold State.setA; split <;> [rfl; (split <;> rfl)]
@[simp] theorem setA_halted (r v) : (s.setA r v).halted = s.halted := by unfold State.setA; split <;> [rfl; (split <;> rfl)]
@[simp] theorem setA_costs (r v) : (s.setA r v).costs = s.costs := by unfold State.setA; split <;> [rfl; (split <;> rfl)]
@[simp] theorem setA_mem (r v) : (s.setA r v).mem = s.mem := by unfold State.setA; split <;> [rfl; (split <;> rfl)]
@[simp] theorem setA_cycles (r v) : (s.setA r v).cycles = s.cycles := by unfold State.setA; split <;> [rfl; (split <;> rfl)]
@[simp] theorem setA_ops (r v) : (s.setA r v).ops = s.ops := by unfold State.setA; split <;> [rfl; (split <;> rfl)]
@[simp] theorem setA_readD (r v) (q : RegNo) (m : Nat) : (s.setA r v).readD q m = s.readD q m := by simp [State.readD]
@[simp] theorem setA_supervisor (r v) : (s.setA r v).supervisor = s.supervisor := by simp [State.supervisor]

@[simp] theorem beginStep_d : s.beginStep.d = s.d := rfl
@[simp] theorem beginStep_a : s.beginStep.a = s.a := rfl
@[simp] theorem beginStep_usp : s.beginStep.usp = s.usp := rfl
@[simp] theorem beginStep_ssp : s.beginStep.ssp = s.ssp := rfl
@[simp] theorem beginStep_pc : s.beginStep.pc = s.pc := rfl
@[simp] theorem beginStep_sr : s.beginStep.sr = s.sr := rfl
@[simp] theorem beginStep_ft : s.beginStep.ft = s.ft := rfl
@[simp] theorem beginStep_halted : s.beginStep.halted = s.halted := rfl
@[simp] theorem beginStep_costs : s.beginStep.costs = s.costs := rfl
@[simp] theorem beginStep_mem : s.beginStep.mem = s.mem := rfl
@[simp] theorem beginStep_cycles : s.beginStep.cycles = s.cycles := rfl
@[simp] theorem beginStep_ops : s.beginStep.ops = [] := rfl

/-- The address-register file with the active stack pointer, after a write to one of them. -/
theorem getA_setA (r q : RegNo) (v : TV 4) : (s.setA r v).getA q = if q = r then v else s.getA q := by
  have hr := r.isLt
  have hq := q.isLt
  unfold State.setA State.getA State.supervisor
  by_cases h : r.val < 7 <;> by_cases h' : q.val < 7 <;> simp only [h, h', dite_true, dite_false]
  · by_cases e : q = r
    · subst e; simp
    · have : r.val ≠ q.val := fun he => e (Fin.ext he.symm)
      simp [e, this]
  · have e : q ≠ r := fun he => h' (he ▸ h)
    simp [e]
  · have e : q ≠ r := fun he => h (he ▸ h')
    split <;> simp
  · have e : q = r := Fin.ext (by omega)
    split <;> simp_all

/-- `A[7]` is the active stack pointer slot (10_state.md R23). -/
theorem getA_seven : s.getA 7 = if s.supervisor then s.ssp else s.usp := rfl

/-- The stack pointer slot that is not active is not written through `A[7]` (10_state.md R23). -/
theorem setA_inactive (r : RegNo) (v : TV 4) :
    (s.supervisor = true → (s.setA r v).usp = s.usp) ∧ (s.supervisor = false → (s.setA r v).ssp = s.ssp) := by
  unfold State.setA
  constructor <;> intro h <;> split <;> simp [h]

theorem get_writeD (r q : RegNo) (v : TV n) :
    (s.writeD r v).d.get q = if q = r then (s.d.get r).setLow v else s.d.get q := by
  by_cases e : q = r
  · subst e; simp [Vector.get_eq_getElem]
  · have : r.val ≠ q.val := fun he => e (Fin.ext he.symm)
    simp [Vector.get_eq_getElem, e, this]

/-- A register read back at the width it was written at (10_state.md R24). -/
theorem readD_writeD_self (r : RegNo) (v : TV n) (h : n ≤ 4) : (s.writeD r v).readD r n = v := by
  rw [State.readD, get_writeD, if_pos rfl, TV.low_setLow _ _ h]

/-- The address registers read the same in states with the same slots and the same mode. -/
theorem getA_congr {s t : State} (ha : t.a = s.a) (hu : t.usp = s.usp) (hs : t.ssp = s.ssp)
    (hm : t.supervisor = s.supervisor) (r : RegNo) : t.getA r = s.getA r := by
  unfold State.getA; rw [ha, hu, hs, hm]

/-- A write to an address register writes the address-register slots and nothing else. -/
theorem setA_eq (r : RegNo) (v : TV 4) :
    s.setA r v = { s with a := (s.setA r v).a, usp := (s.setA r v).usp, ssp := (s.setA r v).ssp } := by
  unfold State.setA; split
  · rfl
  · split <;> rfl

end Sys2Proof.Machine
end

