-- ==== Sys2Proof/Laws/Fetch.lean ====
section
/-! SUPPORT. What the fetch and the step can do (40_step_and_dispatch.md R100 to R104). -/

namespace Sys2Proof.Machine

/-- `s` with `k` words fetched. -/
def fetched (s : State) (k : Nat) : State :=
  { s with pc := s.pc + BitVec.ofNat 32 (2 * k), ops := s.ops ++ fetchOps s.pc k }

theorem fetched_beginStep (s : State) (k : Nat) : fetched s.beginStep k = afterFetch s k := by
  simp [fetched, afterFetch, State.beginStep]

theorem pc_offset2 (a : Addr) (k : Nat) : a + 2 + BitVec.ofNat 32 (2 * k) = a + BitVec.ofNat 32 (2 * (k + 1)) := by
  have e : 2 * (k + 1) = 2 * k + 2 := by omega
  rw [e, BitVec.ofNat_add, BitVec.add_comm (BitVec.ofNat 32 (2 * k)), ← BitVec.add_assoc]; rfl

/-- One fetch (R101). -/
theorem fetch16_of_accepts {s : State} (h : s.mem.accepts s.pc 2 = true) :
    s.fetch16 = .ok ((s.mem.loadBytes s.pc 2).val, fetched s 1) := by
  simp [State.fetch16, memRead_of_accepts _ h, fetched, fetchOps, State.logOp]

theorem fetch16_refused {s : State} (h : s.mem.accepts s.pc 2 = false) :
    s.fetch16 = .error (.addressingFault s.pc 2 .fetch) := by
  simp [State.fetch16, State.memRead, h]

theorem fetched_succ (s : State) (k : Nat) : fetched (fetched s 1) k = fetched s (k + 1) := by
  have := pc_offset2 s.pc k
  simp only [fetched, fetchOps, List.append_assoc]
  congr 1

/-- Fetching the words that lie at `pc`. -/
theorem fetchWords_of_wordsAt {s : State} {ws : List Word} (h : wordsAt s.mem s.pc ws) :
    fetchWords s ws.length = .ok (ws, fetched s ws.length) := by
  induction ws generalizing s with
  | nil => simp [fetchWords, fetched, fetchOps]
  | cons w ws ih =>
    obtain ⟨ha, hw, hrest⟩ := h
    have : wordsAt (fetched s 1).mem (fetched s 1).pc ws := hrest
    simp only [List.length_cons, fetchWords, bind, Except.bind, fetch16_of_accepts ha, ih this, pure, Except.pure, hw,
      fetched_succ]

theorem fetchWords_ok {s t : State} {k : Nat} {ws : List Word} (h : fetchWords s k = .ok (ws, t)) :
    ws.length = k ∧ wordsAt s.mem s.pc ws ∧ t = fetched s k := by
  have hk : ws.length = k ∧ wordsAt s.mem s.pc ws := by
    induction k generalizing s ws t with
    | zero => cases h; exact ⟨rfl, trivial⟩
    | succ k ih =>
      simp only [fetchWords, bind, Except.bind, pure, Except.pure] at h
      cases ha : s.mem.accepts s.pc 2 with
      | false => simp [fetch16_refused ha] at h
      | true =>
        rw [fetch16_of_accepts ha] at h
        dsimp only at h
        split at h
        · cases h
        · next p hp =>
          obtain ⟨xs, u⟩ := p
          cases h
          have := ih hp
          exact ⟨by simp [this.1], ha, rfl, this.2⟩
  obtain ⟨rfl, hw⟩ := hk
  rw [fetchWords_of_wordsAt hw] at h
  cases h
  exact ⟨rfl, hw, rfl⟩

/-- A fetch stops in one way only: the port refuses it (R101). -/
theorem fetch16_error {s : State} {f : Fault} (h : s.fetch16 = .error f) : f = .addressingFault s.pc 2 .fetch := by
  cases ha : s.mem.accepts s.pc 2 with
  | true => rw [fetch16_of_accepts ha] at h; cases h
  | false => rw [fetch16_refused ha] at h; cases h; rfl

theorem fetchWords_error {s : State} {f : Fault} {k : Nat} (h : fetchWords s k = .error f) :
    ∃ a, f = .addressingFault a 2 .fetch := by
  induction k generalizing s with
  | zero => cases h
  | succ k ih =>
    simp only [fetchWords, bind, Except.bind] at h
    split at h
    · next e => cases h; exact ⟨_, fetch16_error e⟩
    · split at h
      · next e => cases h; exact ih e
      · cases h

/-- The first refused fetch is the fault (20 R58). -/
theorem fetchWords_refused {s : State} {ws : List Word} {k : Nat} (h : wordsAt s.mem s.pc ws) (hk : ws.length < k)
    (hbad : s.mem.accepts (s.pc + BitVec.ofNat 32 (2 * ws.length)) 2 = false) :
    fetchWords s k = .error (.addressingFault (s.pc + BitVec.ofNat 32 (2 * ws.length)) 2 .fetch) := by
  induction ws generalizing s k with
  | nil =>
    obtain ⟨k, rfl⟩ : ∃ m, k = m + 1 := ⟨k - 1, by omega⟩
    simp only [List.length_nil] at *
    have : s.mem.accepts s.pc 2 = false := by simpa using hbad
    simp [fetchWords, fetch16_refused this, bind, Except.bind]
  | cons w ws ih =>
    obtain ⟨k, rfl⟩ : ∃ m, k = m + 1 := ⟨k - 1, by omega⟩
    obtain ⟨ha, hw, hrest⟩ := h
    have hx : wordsAt (fetched s 1).mem (fetched s 1).pc ws := hrest
    have e : (fetched s 1).pc + BitVec.ofNat 32 (2 * ws.length) = s.pc + BitVec.ofNat 32 (2 * (ws.length + 1)) :=
      pc_offset2 s.pc ws.length
    have := ih (s := fetched s 1) (k := k) hx (by simpa using hk) (by rw [e]; exact hbad)
    rw [e] at this
    simp only [fetchWords, fetch16_of_accepts ha, bind, Except.bind, this, List.length_cons]

/-- The instruction fetched is the one that the words at `pc` decode to. -/
theorem fetchInstr_ok {s t : State} {i : Instr} (h : fetchInstr s = .ok (i, t)) :
    ∃ ws, decodeWords ws = .ok (i, []) ∧ wordsAt s.mem s.pc ws ∧ t = fetched s ws.length := by
  simp only [fetchInstr, bind, Except.bind, pure, Except.pure] at h
  cases ha : s.mem.accepts s.pc 2 with
  | false => simp [fetch16_refused ha] at h
  | true =>
    rw [fetch16_of_accepts ha] at h
    dsimp only at h
    cases hf : dispatchTable (s.mem.loadBytes s.pc 2).val with
    | none => rw [hf] at h; cases h
    | some f =>
      rw [hf] at h
      dsimp only at h
      split at h
      · cases h
      · next p hp =>
        obtain ⟨xs, u⟩ := p
        obtain ⟨hl, hw, rfl⟩ := fetchWords_ok hp
        cases h
        refine ⟨_ :: xs, ?_, ⟨ha, rfl, hw⟩, by rw [← hl, fetched_succ]; rfl⟩
        simp only [decodeWords, hf, ← hl, lt_irrefl, if_false, List.drop_length]

theorem fetchInstr_of_wordsAt {s : State} {ws : List Word} {i : Instr} (hd : decodeWords ws = .ok (i, []))
    (hw : wordsAt s.mem s.pc ws) : fetchInstr s = .ok (i, fetched s ws.length) := by
  obtain ⟨w, xs, f, rfl, hf, hle, rfl, hr⟩ := decodeWords_ok hd
  have hl : f.extWords w = xs.length := by
    have := List.drop_eq_nil_iff.1 hr.symm
    omega
  obtain ⟨ha, hw0, hrest⟩ := hw
  have hx : wordsAt (fetched s 1).mem (fetched s 1).pc xs := hrest
  simp only [fetchInstr, bind, Except.bind, pure, Except.pure, fetch16_of_accepts ha, hw0, hf, hl, fetchWords_of_wordsAt hx,
    fetched_succ, List.length_cons]

/-- What a step that completes can be: `exec` of the well-formed instruction at `pc`, after its fetches. -/
theorem step_next {s t : State} (h : step s = .next t) :
    s.halted = false ∧ ∃ ws i, decodeWords ws = .ok (i, []) ∧ wordsAt s.mem s.pc ws ∧ i.wf = true ∧
      exec i (afterFetch s ws.length) = .next t := by
  unfold step at h
  split at h
  · cases h
  · next hh =>
    refine ⟨by simpa using hh, ?_⟩
    split at h
    · cases h
    · next i u hf =>
      obtain ⟨ws, hd, hw, rfl⟩ := fetchInstr_ok hf
      rw [fetched_beginStep] at h
      exact ⟨ws, i, hd, hw, decodeWords_wf hd, h⟩

@[simp] theorem deliver_next {x : Except Fault State} {t : State} : deliver x = .next t ↔ x = .ok t := by
  cases x <;> simp [deliver]

@[simp] theorem deliver_fault {x : Except Fault State} {f : Fault} : deliver x = .fault f ↔ x = .error f := by
  cases x <;> simp [deliver]

@[simp] theorem deliver_not_refused {x : Except Fault State} {r : Refusal} : deliver x ≠ .refused r := by
  cases x <;> simp [deliver]

end Sys2Proof.Machine
end

