-- ==== Sys2Proof/Laws/Movep.lean ====
section
/-! SUPPORT. What the byte-lane transfer family can do (44_movep.md R190). -/

namespace Sys2Proof.Machine

/-- The bytes at `a`, `a+2`, ... as one value, the first most significant. -/
def laneValue (m : Memory) (a : Addr) : (k : Nat) → TV k
  | 0 => ⟨0, 0⟩
  | k + 1 => (m.cell a).push (laneValue m (a + 2) k)

/-- The low `k` bytes of `v` stored at `a`, `a+2`, ..., the most significant first. -/
def storeLanes {n : Nat} (m : Memory) (a : Addr) (v : TV n) : Nat → Memory
  | 0 => m
  | k + 1 => storeLanes (m.setCell a (v.lane k)) (a + 2) v k

/-- The state with the operations of `k` lanes issued. -/
def logLanes (s : State) (kind : AccessKind) (a : Addr) (k : Nat) : State := { s with ops := s.ops ++ laneOps kind a k }

theorem loadBytes_one (m : Memory) (a : Addr) : m.loadBytes a 1 = m.cell a := by
  apply TV.ext_parts <;> simp [Memory.loadBytes, TV.push]

theorem storeBytes_one (m : Memory) (a : Addr) (v : TV 1) : m.storeBytes a v 1 = m.setCell a v := by
  have : v.lane 0 = v := by apply TV.ext_parts <;> simp [TV.lane]
  simp [Memory.storeBytes, this]

/-- Reading lanes answers their bytes exactly when the port accepts each of them. -/
theorem readLanes_eq (s : State) (a : Addr) (k : Nat) (h : lanesAccepted s.mem a k = true) :
    readLanes s a k = .ok (laneValue s.mem a k, logLanes s .read a k) := by
  induction k generalizing s a with
  | zero => simp [readLanes, laneValue, logLanes, laneOps]
  | succ k ih =>
    simp only [lanesAccepted, Bool.and_eq_true] at h
    have h2 : lanesAccepted (s.logOp .read a 1).mem (a + 2) k = true := h.2
    simp only [readLanes, State.memRead, h.1, if_true, bind, Except.bind, ih _ _ h2, pure, Except.pure, loadBytes_one]
    simp [laneValue, logLanes, laneOps, State.logOp]

theorem readLanes_ok {s t : State} {a : Addr} {k : Nat} {v : TV k} (h : readLanes s a k = .ok (v, t)) :
    lanesAccepted s.mem a k = true ∧ v = laneValue s.mem a k ∧ t = logLanes s .read a k := by
  have hacc : lanesAccepted s.mem a k = true := by
    induction k generalizing s a t with
    | zero => rfl
    | succ k ih =>
      simp only [readLanes, State.memRead, bind, Except.bind] at h
      split at h
      · cases h
      · next p hp =>
        split at hp
        · next ha =>
          cases hp
          dsimp only at h
          split at h
          · cases h
          · next q hq =>
            obtain ⟨lo, u⟩ := q
            have := ih hq
            simp only [lanesAccepted, ha, Bool.true_and]
            exact this
        · cases hp
  rw [readLanes_eq s a k hacc] at h
  cases h
  exact ⟨hacc, rfl, rfl⟩

theorem lanesAccepted_congr {m m' : Memory} (h : m.map = m'.map) (a : Addr) (k : Nat) :
    lanesAccepted m a k = lanesAccepted m' a k := by
  induction k generalizing a with
  | zero => rfl
  | succ k ih => simp [lanesAccepted, ih, accepts_congr h]

@[simp] theorem storeLanes_map {n : Nat} (m : Memory) (a : Addr) (v : TV n) (k : Nat) : (storeLanes m a v k).map = m.map := by
  induction k generalizing m a with
  | zero => rfl
  | succ k ih => simp [storeLanes, ih]

/-- Writing lanes answers the stored memory exactly when the port accepts each of them. -/
theorem writeLanes_eq {n : Nat} (s : State) (a : Addr) (v : TV n) (k : Nat) (h : lanesAccepted s.mem a k = true) :
    writeLanes s a v k = .ok { logLanes s .write a k with mem := storeLanes s.mem a v k } := by
  induction k generalizing s a with
  | zero => simp [writeLanes, storeLanes, logLanes, laneOps]
  | succ k ih =>
    simp only [lanesAccepted, Bool.and_eq_true] at h
    have h2 : lanesAccepted (s.mem.setCell a (v.lane k)) (a + 2) k = true := by
      rw [lanesAccepted_congr (setCell_map _ _ _)]; exact h.2
    simp only [writeLanes, State.memWrite, h.1, if_true, bind, Except.bind, storeBytes_one]
    rw [ih _ _ h2]
    simp [storeLanes, logLanes, laneOps, State.logOp]

theorem writeLanes_ok {n : Nat} {s t : State} {a : Addr} {v : TV n} {k : Nat} (h : writeLanes s a v k = .ok t) :
    lanesAccepted s.mem a k = true ∧ t = { logLanes s .write a k with mem := storeLanes s.mem a v k } := by
  have hacc : lanesAccepted s.mem a k = true := by
    induction k generalizing s a with
    | zero => rfl
    | succ k ih =>
      simp only [writeLanes, State.memWrite, bind, Except.bind] at h
      split at h
      · cases h
      · next p hp =>
        split at hp
        · next ha =>
          cases hp
          have := ih h
          simp only [lanesAccepted, ha, Bool.true_and]
          rwa [lanesAccepted_congr (m' := s.mem) (by simp)] at this
        · cases hp
  rw [writeLanes_eq s a v k hacc] at h
  cases h
  exact ⟨hacc, rfl⟩

theorem offset2_succ (a : Addr) (i : Nat) : a + BitVec.ofNat 32 (2 * (i + 1)) = a + 2 + BitVec.ofNat 32 (2 * i) := by
  have e : 2 * (i + 1) = 2 * i + 2 := by omega
  rw [e, BitVec.ofNat_add, BitVec.add_comm (BitVec.ofNat 32 (2 * i)), ← BitVec.add_assoc]; rfl

/-- The first refused lane is the fault (R190). -/
theorem lanes_refused {n : Nat} (v : TV n) (s : State) (a : Addr) {j k : Nat} (hj : j < k)
    (hok : lanesAccepted s.mem a j = true) (hbad : s.mem.accepts (a + BitVec.ofNat 32 (2 * j)) 1 = false) :
    readLanes s a k = .error (.addressingFault (a + BitVec.ofNat 32 (2 * j)) 1 .read) ∧
    writeLanes s a v k = .error (.addressingFault (a + BitVec.ofNat 32 (2 * j)) 1 .write) := by
  induction j generalizing s a k with
  | zero =>
    obtain ⟨k, rfl⟩ : ∃ m, k = m + 1 := ⟨k - 1, by omega⟩
    have hbad' : s.mem.accepts a 1 = false := by simpa using hbad
    simp [readLanes, writeLanes, State.memRead, State.memWrite, hbad', bind, Except.bind]
  | succ j ih =>
    obtain ⟨k, rfl⟩ : ∃ m, k = m + 1 := ⟨k - 1, by omega⟩
    simp only [lanesAccepted, Bool.and_eq_true] at hok
    rw [offset2_succ] at hbad ⊢
    constructor
    · have := (ih (s.logOp .read a 1) (a + 2) (k := k) (by omega) hok.2 hbad).1
      simp only [readLanes, State.memRead, hok.1, if_true, bind, Except.bind, this]
    · have := (ih { s.logOp .write a 1 with mem := s.mem.storeBytes a (v.lane k) 1 } (a + 2) (k := k) (by omega)
        (by rw [lanesAccepted_congr (m' := s.mem) (by simp)]; exact hok.2)
        (by rw [accepts_congr (m' := s.mem) (by simp)]; exact hbad)).2
      simp only [writeLanes, State.memWrite, hok.1, if_true, bind, Except.bind]
      exact this

/-- Lanes that are not all accepted have a first refused lane. -/
theorem lanes_first_refused {m : Memory} {a : Addr} {k : Nat} (h : lanesAccepted m a k = false) :
    ∃ j, j < k ∧ lanesAccepted m a j = true ∧ m.accepts (a + BitVec.ofNat 32 (2 * j)) 1 = false := by
  induction k generalizing a with
  | zero => cases h
  | succ k ih =>
    cases ha : m.accepts a 1 with
    | false => exact ⟨0, Nat.succ_pos k, rfl, by simpa using ha⟩
    | true =>
      simp only [lanesAccepted, ha, Bool.true_and] at h
      obtain ⟨j, hj, h1, h2⟩ := ih h
      exact ⟨j + 1, Nat.succ_lt_succ hj, by simp only [lanesAccepted, ha, h1, Bool.and_true],
        by rw [offset2_succ]; exact h2⟩

/-- A cell that no lane falls on is left alone. -/
theorem cell_storeLanes_outside {n : Nat} (m : Memory) (a b : Addr) (v : TV n) (k : Nat)
    (h : ∀ i, i < k → b ≠ a + BitVec.ofNat 32 (2 * i)) : (storeLanes m a v k).cell b = m.cell b := by
  induction k generalizing m a with
  | zero => rfl
  | succ k ih =>
    have h0 : b ≠ a := by simpa using h 0 (by omega)
    rw [storeLanes, ih, cell_setCell_ne _ _ h0]
    intro i hi
    have := h (i + 1) (by omega)
    rwa [offset2_succ] at this

theorem storeLanes_wf {n : Nat} {m : Memory} (hm : m.wf) {a : Addr} {k : Nat} (v : TV n) (ha : lanesAccepted m a k = true) :
    (storeLanes m a v k).wf := by
  induction k generalizing m a with
  | zero => exact hm
  | succ k ih =>
    simp only [lanesAccepted, Bool.and_eq_true] at ha
    have h1 : m.mapped a.toNat = true := by simpa [Memory.allMapped] using accepts_allMapped ha.1
    exact ih (setCell_wf hm h1 _) (by rw [lanesAccepted_congr (setCell_map _ _ _)]; exact ha.2)

/-- Lane `i` of a store lies at `a + 2i` (R190). -/
theorem cell_storeLanes_inside {n : Nat} {m : Memory} (hm : m.wf) {a : Addr} (v : TV n) {k : Nat}
    (ha : lanesAccepted m a k = true) (hk : k ≤ 2 ^ 31) {i : Nat} (hi : i < k) :
    (storeLanes m a v k).cell (a + BitVec.ofNat 32 (2 * i)) = v.lane (k - 1 - i) := by
  induction k generalizing m a i with
  | zero => omega
  | succ k ih =>
    simp only [lanesAccepted, Bool.and_eq_true] at ha
    have h1 : m.mapped a.toNat = true := by simpa [Memory.allMapped] using accepts_allMapped ha.1
    rw [storeLanes]
    cases i with
    | zero =>
      rw [cell_storeLanes_outside]
      · simpa using cell_setCell_self hm a (v.lane k)
      · intro j hj
        have := offset_ne (a := a) (i := 0) (j := 2 * (j + 1)) (by omega) (by omega) (by omega)
        rw [offset2_succ] at this
        simpa using this
    | succ i =>
      have := ih (setCell_wf hm h1 (v.lane k)) (a := a + 2)
        (by rw [lanesAccepted_congr (setCell_map _ _ _)]; exact ha.2) (by omega) (i := i) (by omega)
      rw [offset2_succ, this]
      congr 1
      omega

/-- Lane `k` of the value read is the cell it lies in. -/
theorem lane_laneValue (m : Memory) (a : Addr) {n k : Nat} (hk : k < n) :
    (laneValue m a n).lane k = m.cell (a + BitVec.ofNat 32 (2 * (n - 1 - k))) := by
  induction n generalizing a with
  | zero => omega
  | succ n ih =>
    rw [laneValue]
    by_cases h : k = n
    · subst h; rw [TV.lane_push_top]; simp
    · rw [TV.lane_push_lower _ _ (by omega), ih _ (by omega)]
      have e : n + 1 - 1 - k = (n - 1 - k) + 1 := by omega
      rw [e, offset2_succ]

/-- What a memory-to-register transfer answers. -/
theorem movepToReg_of_accepted {k c : Nat} {d16 : BitVec 16} {ay dx : RegNo} {s : State}
    (h : lanesAccepted s.mem (movepBase s ay d16) k = true) :
    movepToReg k c d16 ay dx s =
      .ok (((logLanes s .read (movepBase s ay d16) k).writeD dx (laneValue s.mem (movepBase s ay d16) k)).setCycles c) := by
  simp [movepToReg, readLanes_eq _ _ _ h, bind, Except.bind, pure, Except.pure]

theorem movepToReg_ok {k c : Nat} {d16 : BitVec 16} {ay dx : RegNo} {s t : State} (h : movepToReg k c d16 ay dx s = .ok t) :
    lanesAccepted s.mem (movepBase s ay d16) k = true ∧
    t = ((logLanes s .read (movepBase s ay d16) k).writeD dx (laneValue s.mem (movepBase s ay d16) k)).setCycles c := by
  simp only [movepToReg, bind, Except.bind, pure, Except.pure] at h
  split at h
  · cases h
  · next p hp =>
    obtain ⟨v, u⟩ := p
    obtain ⟨hacc, rfl, rfl⟩ := readLanes_ok hp
    cases h
    exact ⟨hacc, rfl⟩

/-- What a register-to-memory transfer answers. -/
theorem movepToMem_of_accepted {k c : Nat} {d16 : BitVec 16} {ay dx : RegNo} {s : State}
    (h : lanesAccepted s.mem (movepBase s ay d16) k = true) :
    movepToMem k c dx d16 ay s =
      .ok ({ logLanes s .write (movepBase s ay d16) k with
        mem := storeLanes s.mem (movepBase s ay d16) (s.readD dx k) k }.setCycles c) := by
  simp [movepToMem, writeLanes_eq _ _ _ _ h, bind, Except.bind, pure, Except.pure]

theorem movepToMem_ok {k c : Nat} {d16 : BitVec 16} {ay dx : RegNo} {s t : State} (h : movepToMem k c dx d16 ay s = .ok t) :
    lanesAccepted s.mem (movepBase s ay d16) k = true ∧
    t = { logLanes s .write (movepBase s ay d16) k with
      mem := storeLanes s.mem (movepBase s ay d16) (s.readD dx k) k }.setCycles c := by
  simp only [movepToMem, bind, Except.bind, pure, Except.pure] at h
  split at h
  · cases h
  · next u hp =>
    obtain ⟨hacc, rfl⟩ := writeLanes_ok hp
    cases h
    exact ⟨hacc, rfl⟩

end Sys2Proof.Machine
end

