-- ==== Sys2Proof/Laws/Flags.lean ====
section
/-! SUPPORT. Laws of the flag computation unit (42_alu_and_flags.md): what a flag update writes bit by bit, and what the
flag-byte write path writes. -/

namespace Sys2Proof.Machine

theorem flagBits_bit (x n z v c : Bool) :
    (flagBits x n z v c).getLsbD 0 = c ∧ (flagBits x n z v c).getLsbD 1 = v ∧ (flagBits x n z v c).getLsbD 2 = z ∧
    (flagBits x n z v c).getLsbD 3 = n ∧ (flagBits x n z v c).getLsbD 4 = x := by
  revert x n z v c; decide

/-- A flag register's low five bits replaced, the rest kept. -/
theorem low5_replaced (sr : BitVec 16) (f : BitVec 5) :
    (∀ i, i < 5 → ((sr &&& 0xFFE0) ||| f.setWidth 16).getLsbD i = f.getLsbD i) ∧
    ((sr &&& 0xFFE0) ||| f.setWidth 16).extractLsb' 5 11 = sr.extractLsb' 5 11 := by
  constructor
  · intro i hi
    have h : (0xFFE0 : BitVec 16).getLsbD i = false := by
      have : ∀ j : Fin 5, (0xFFE0 : BitVec 16).getLsbD j.val = false := by decide
      exact this ⟨i, hi⟩
    simp only [BitVec.getLsbD_or, BitVec.getLsbD_and, BitVec.getLsbD_setWidth, h]
    simp [show i < 16 by omega]
  · apply BitVec.eq_of_getLsbD_eq
    intro i hi
    have h : (0xFFE0 : BitVec 16).getLsbD (5 + i) = true := by
      have : ∀ j : Fin 11, (0xFFE0 : BitVec 16).getLsbD (5 + j.val) = true := by decide
      exact this ⟨i, hi⟩
    simp only [BitVec.getLsbD_or, BitVec.getLsbD_and, BitVec.getLsbD_setWidth, BitVec.getLsbD_extractLsb', h]
    simp [hi]

/-- A flag register's low byte replaced by five flags and three zeros, the high byte kept. -/
theorem lowByte_replaced (sr : BitVec 16) (f : BitVec 5) :
    (∀ i, i < 5 → ((sr &&& 0xFF00) ||| f.setWidth 16).getLsbD i = f.getLsbD i) ∧
    ((sr &&& 0xFF00) ||| f.setWidth 16).extractLsb' 5 3 = 0 ∧
    ((sr &&& 0xFF00) ||| f.setWidth 16).extractLsb' 8 8 = sr.extractLsb' 8 8 := by
  refine ⟨?_, ?_, ?_⟩
  · intro i hi
    have h : (0xFF00 : BitVec 16).getLsbD i = false := by
      have : ∀ j : Fin 5, (0xFF00 : BitVec 16).getLsbD j.val = false := by decide
      exact this ⟨i, hi⟩
    simp only [BitVec.getLsbD_or, BitVec.getLsbD_and, BitVec.getLsbD_setWidth, h]
    simp [show i < 16 by omega]
  · apply BitVec.eq_of_getLsbD_eq
    intro i hi
    have h : (0xFF00 : BitVec 16).getLsbD (5 + i) = false := by
      have : ∀ j : Fin 3, (0xFF00 : BitVec 16).getLsbD (5 + j.val) = false := by decide
      exact this ⟨i, hi⟩
    simp only [BitVec.getLsbD_or, BitVec.getLsbD_and, BitVec.getLsbD_setWidth, BitVec.getLsbD_extractLsb', h]
    simp [hi]
  · apply BitVec.eq_of_getLsbD_eq
    intro i hi
    have h : (0xFF00 : BitVec 16).getLsbD (8 + i) = true := by
      have : ∀ j : Fin 8, (0xFF00 : BitVec 16).getLsbD (8 + j.val) = true := by decide
      exact this ⟨i, hi⟩
    have h5 : f.getLsbD (8 + i) = false := BitVec.getLsbD_of_ge _ _ (by omega)
    simp only [BitVec.getLsbD_or, BitVec.getLsbD_and, BitVec.getLsbD_setWidth, BitVec.getLsbD_extractLsb', h, h5]
    simp [hi]

/-- What `applyFlags` writes (R160): each flag and its taint; X by `u.x`, or unaffected; `SR[15:5]` never. -/
theorem applyFlags_spec (s : State) (u : FlagUpdate) :
    (s.applyFlags u).flagC = u.c.val ∧ (s.applyFlags u).flagV = u.v.val ∧ (s.applyFlags u).flagZ = u.z.val ∧
    (s.applyFlags u).flagN = u.n.val ∧ (s.applyFlags u).flagX = (u.x.map (·.val)).getD s.flagX ∧
    (s.applyFlags u).ft.getLsbD 0 = u.c.taint ∧ (s.applyFlags u).ft.getLsbD 1 = u.v.taint ∧
    (s.applyFlags u).ft.getLsbD 2 = u.z.taint ∧ (s.applyFlags u).ft.getLsbD 3 = u.n.taint ∧
    (s.applyFlags u).ft.getLsbD 4 = (u.x.map (·.taint)).getD (s.ft.getLsbD 4) ∧
    (s.applyFlags u).sr.extractLsb' 5 11 = s.sr.extractLsb' 5 11 := by
  have hx : ∀ (o : Option FlagVal) (d : FlagVal), (o.getD d).val = (o.map (·.val)).getD d.val ∧
      (o.getD d).taint = (o.map (·.taint)).getD d.taint := by intro o d; cases o <;> exact ⟨rfl, rfl⟩
  have hv := flagBits_bit (u.x.getD ⟨s.flagX, s.ft.getLsbD 4⟩).val u.n.val u.z.val u.v.val u.c.val
  have ht := flagBits_bit (u.x.getD ⟨s.flagX, s.ft.getLsbD 4⟩).taint u.n.taint u.z.taint u.v.taint u.c.taint
  have h5 := low5_replaced s.sr (flagBits (u.x.getD ⟨s.flagX, s.ft.getLsbD 4⟩).val u.n.val u.z.val u.v.val u.c.val)
  rw [(hx u.x _).1] at hv h5
  rw [(hx u.x _).2] at ht
  unfold State.flagC State.flagV State.flagZ State.flagN State.flagX at *
  simp only [State.applyFlags, State.flagX, (hx u.x _).1, (hx u.x _).2]
  refine ⟨?_, ?_, ?_, ?_, ?_, ht.1, ht.2.1, ht.2.2.1, ht.2.2.2.1, ht.2.2.2.2, h5.2⟩
  · rw [h5.1 0 (by decide)]; exact hv.1
  · rw [h5.1 1 (by decide)]; exact hv.2.1
  · rw [h5.1 2 (by decide)]; exact hv.2.2.1
  · rw [h5.1 3 (by decide)]; exact hv.2.2.2.1
  · rw [h5.1 4 (by decide)]; exact hv.2.2.2.2

/-- `SR[15:5]` decides the mode, the reserved bits and the high byte. -/
theorem upper_of_extract {a b : BitVec 16} (h : a.extractLsb' 5 11 = b.extractLsb' 5 11) :
    a.getLsbD 13 = b.getLsbD 13 ∧ a.extractLsb' 5 3 = b.extractLsb' 5 3 ∧ a.extractLsb' 8 8 = b.extractLsb' 8 8 := by
  have hb : ∀ i, i < 11 → a.getLsbD (5 + i) = b.getLsbD (5 + i) := fun i hi => by
    simpa [hi] using congrArg (fun v => v.getLsbD i) h
  refine ⟨hb 8 (by decide), ?_, ?_⟩ <;> apply BitVec.eq_of_getLsbD_eq <;> intro i hi
  · simpa [hi] using hb i (by omega)
  · have := hb (3 + i) (by omega)
    simpa [hi, show 5 + (3 + i) = 8 + i by omega] using this

/-- A flag update leaves the mode alone. -/
@[simp] theorem applyFlags_supervisor (s : State) (u : FlagUpdate) : (s.applyFlags u).supervisor = s.supervisor :=
  (upper_of_extract (applyFlags_spec s u).2.2.2.2.2.2.2.2.2.2).1

@[simp] theorem applyFlags_getA (s : State) (u : FlagUpdate) (r : RegNo) : (s.applyFlags u).getA r = s.getA r :=
  getA_congr (s := s) (t := s.applyFlags u) rfl rfl rfl (applyFlags_supervisor s u) r

/-- A logical update (R161, R167). -/
theorem applyFlags_logical {n : Nat} (s : State) (tc : Bool) (res : TV n) :
    LogicalFlagsAfter s (s.applyFlags (logicalFlags tc res)) res.val tc := by
  obtain ⟨c, v, z, nf, x, fc, fv, fz, fn, fx, hi⟩ := applyFlags_spec s (logicalFlags tc res)
  refine ⟨c, v, ?_, nf, x, fc, fv, fz, fn, fx, hi⟩
  rw [z]
  simp only [logicalFlags, zeroFlag]
  exact beq_eq_decide _ _

/-- The five flags as the flag-byte write path reads them. -/
theorem flags_bit (s : State) {i : Nat} (hi : i < 5) : s.flags.getLsbD i = s.sr.getLsbD i := by
  simp [State.flags, hi]

/-- What the flag-byte write path writes to `SR` (R169). -/
theorem flagByteWrite_sr (s : State) (op : CcrOp) (imm : BitVec 5) :
    (∀ i, i < 5 → (s.flagByteWrite op imm).sr.getLsbD i = (op.value s.flags imm).getLsbD i) ∧
    (s.flagByteWrite op imm).sr.extractLsb' 5 3 = 0 ∧
    (s.flagByteWrite op imm).sr.extractLsb' 8 8 = s.sr.extractLsb' 8 8 := lowByte_replaced _ _

/-- `FLAG_MASK` keeps the five legal bits of the immediate and no more (R200). -/
theorem maskedImm_bit (imm16 : BitVec 16) {i : Nat} (hi : i < 5) :
    ((imm16 &&& Config.flagMask).setWidth 5).getLsbD i = imm16.getLsbD i := by
  have h : (0x001F : Word).getLsbD i = true := by
    have : ∀ j : Fin 5, (0x001F : Word).getLsbD j.val = true := by decide
    exact this ⟨i, hi⟩
  simp only [Config.flagMask, BitVec.getLsbD_setWidth, BitVec.getLsbD_and, h]
  simp [hi]

end Sys2Proof.Machine
end

