-- ==== Sys2Proof/Laws/Operands.lean ====
section
/-! SUPPORT. What the resolver can do (41_ea_resolver.md): its side effect field by field, and what reading through a
resolved operand answers. -/

namespace Sys2Proof.Machine

variable (ea : Ea) (sz : Size) (s : State)

/-- The resolver's side effect is a write to one address register, or nothing. -/
theorem eaUpdate_cases :
    (steppedReg ea = none ∧ eaUpdate ea sz s = s) ∨
    ∃ r v, steppedReg ea = some r ∧ eaUpdate ea sz s = s.setA r ⟨v, TV.smear (s.getA r).tainted 4⟩ := by
  cases ea with
  | postInc r => exact .inr ⟨r, _, rfl, rfl⟩
  | preDec r => exact .inr ⟨r, _, rfl, rfl⟩
  | _ => exact .inl ⟨rfl, rfl⟩

@[simp] theorem eaUpdate_d : (eaUpdate ea sz s).d = s.d := by cases ea <;> simp [eaUpdate]
@[simp] theorem eaUpdate_pc : (eaUpdate ea sz s).pc = s.pc := by cases ea <;> simp [eaUpdate]
@[simp] theorem eaUpdate_sr : (eaUpdate ea sz s).sr = s.sr := by cases ea <;> simp [eaUpdate]
@[simp] theorem eaUpdate_ft : (eaUpdate ea sz s).ft = s.ft := by cases ea <;> simp [eaUpdate]
@[simp] theorem eaUpdate_halted : (eaUpdate ea sz s).halted = s.halted := by cases ea <;> simp [eaUpdate]
@[simp] theorem eaUpdate_costs : (eaUpdate ea sz s).costs = s.costs := by cases ea <;> simp [eaUpdate]
@[simp] theorem eaUpdate_mem : (eaUpdate ea sz s).mem = s.mem := by cases ea <;> simp [eaUpdate]
@[simp] theorem eaUpdate_cycles : (eaUpdate ea sz s).cycles = s.cycles := by cases ea <;> simp [eaUpdate]
@[simp] theorem eaUpdate_ops : (eaUpdate ea sz s).ops = s.ops := by cases ea <;> simp [eaUpdate]
@[simp] theorem eaUpdate_readD (r : RegNo) (n : Nat) : (eaUpdate ea sz s).readD r n = s.readD r n := by
  simp [State.readD]

/-- The stepped register after the side effect (R124, R125, R135). -/
theorem eaUpdate_stepped : SteppedAfter ea sz s (eaUpdate ea sz s) := by
  intro r
  constructor <;> rintro rfl <;> simp [eaUpdate, getA_setA]

/-- The address registers after the side effect (R124, R125, R135). -/
theorem eaUpdate_addressFrame : AddressRegsFrame (steppedReg ea) s (eaUpdate ea sz s) := by
  rcases eaUpdate_cases ea sz s with ⟨h, e⟩ | ⟨r, v, h, e⟩ <;> rw [h, e]
  · exact ⟨fun _ _ => rfl, fun _ => rfl, fun _ => rfl⟩
  · refine ⟨fun q hq => ?_, (setA_inactive s r _).1, (setA_inactive s r _).2⟩
    have : q ≠ r := fun h => hq (by rw [h])
    rw [getA_setA, if_neg this]

/-- The state after an operand is resolved and read once: the side effect, and the read if it is in memory. -/
def afterRead : State :=
  match eaAddress ea sz s with
  | some a => (eaUpdate ea sz s).logOp .read a sz.bytes
  | none => eaUpdate ea sz s

@[simp] theorem afterRead_d : (afterRead ea sz s).d = s.d := by unfold afterRead; split <;> simp
@[simp] theorem afterRead_pc : (afterRead ea sz s).pc = s.pc := by unfold afterRead; split <;> simp
@[simp] theorem afterRead_sr : (afterRead ea sz s).sr = s.sr := by unfold afterRead; split <;> simp
@[simp] theorem afterRead_ft : (afterRead ea sz s).ft = s.ft := by unfold afterRead; split <;> simp
@[simp] theorem afterRead_halted : (afterRead ea sz s).halted = s.halted := by unfold afterRead; split <;> simp
@[simp] theorem afterRead_costs : (afterRead ea sz s).costs = s.costs := by unfold afterRead; split <;> simp
@[simp] theorem afterRead_mem : (afterRead ea sz s).mem = s.mem := by unfold afterRead; split <;> simp
@[simp] theorem afterRead_readD (r : RegNo) (n : Nat) : (afterRead ea sz s).readD r n = s.readD r n := by simp [State.readD]
@[simp] theorem afterRead_a : (afterRead ea sz s).a = (eaUpdate ea sz s).a := by unfold afterRead; split <;> simp
@[simp] theorem afterRead_usp : (afterRead ea sz s).usp = (eaUpdate ea sz s).usp := by unfold afterRead; split <;> simp
@[simp] theorem afterRead_ssp : (afterRead ea sz s).ssp = (eaUpdate ea sz s).ssp := by unfold afterRead; split <;> simp
@[simp] theorem afterRead_getA (r : RegNo) : (afterRead ea sz s).getA r = (eaUpdate ea sz s).getA r := by
  unfold afterRead; split <;> simp
theorem afterRead_ops :
    (afterRead ea sz s).ops = s.ops ++ ((eaAddress ea sz s).map fun a => ⟨.read, a, sz.bytes⟩).toList := by
  unfold afterRead; split <;> simp_all

variable {ea sz s}

/-- A resolution answers the EA field, the mode's cost and the side effect. -/
theorem resolve_ok {o : Operand sz.bytes} {t : State} (h : resolve ea sz s = .ok (o, t)) :
    o.mode = ea.mode ∧ o.reg = ea.reg ∧ o.extra = s.eaCycles ea sz ∧ eaKind ea sz s = .ok o.kind ∧
      t = eaUpdate ea sz s := by
  unfold resolve at h
  split at h
  · cases h
  · next k hk => cases h; exact ⟨rfl, rfl, rfl, hk, rfl⟩

/-- The kind of a memory operand. -/
theorem eaKind_mem {a : Addr} (h : eaAddress ea sz s = some a) : eaKind ea sz s = .ok (.mem a) := by
  cases ea <;> simp_all [eaKind, eaAddress]

/-- An operand that is not in memory is a register or an immediate, or the resolution is refused. -/
theorem eaKind_of_none (h : eaAddress ea sz s = none) :
    (∃ r, ea = .dReg r) ∨ (∃ r, ea = .aReg r) ∨ (∃ v, ea = .imm v) ∨ (∃ r, ea = .unnamed r) := by
  cases ea <;> simp_all [eaAddress]

/-- The value of a memory operand. -/
theorem sourceValue_mem {a : Addr} (h : eaAddress ea sz s = some a) : sourceValue ea sz s = s.mem.loadBytes a sz.bytes := by
  cases ea <;> simp_all [eaAddress, sourceValue]

/-- Resolving and reading an operand, when it answers, answers the operand's value, and the port accepted it. -/
theorem resolve_read_ok {o : Operand sz.bytes} {t u : State} {x : TV sz.bytes} (h1 : resolve ea sz s = .ok (o, t))
    (h2 : o.read t = .ok (x, u)) : x = sourceValue ea sz s ∧ u = afterRead ea sz s ∧ operandAccepted ea sz s = true := by
  obtain ⟨-, -, -, hk, rfl⟩ := resolve_ok h1
  cases ha : eaAddress ea sz s with
  | some a =>
    rw [eaKind_mem ha] at hk
    cases hk' : o.kind <;> rw [hk'] at hk <;> cases hk
    simp only [Operand.read, hk'] at h2
    obtain ⟨hacc, rfl, rfl⟩ := memRead_ok h2
    simp_all [sourceValue_mem ha, afterRead, operandAccepted]
  | none =>
    have hacc : operandAccepted ea sz s = true := by simp [operandAccepted, ha]
    rcases eaKind_of_none ha with ⟨r, rfl⟩ | ⟨r, rfl⟩ | ⟨v, rfl⟩ | ⟨r, rfl⟩ <;> simp only [eaKind] at hk
    · cases hk' : o.kind <;> rw [hk'] at hk <;> cases hk
      simp only [Operand.read, hk'] at h2
      cases h2
      exact ⟨rfl, rfl, hacc⟩
    · cases hk' : o.kind <;> rw [hk'] at hk <;> cases hk
      simp only [Operand.read, hk'] at h2
      split at h2 <;> cases h2
      exact ⟨rfl, rfl, hacc⟩
    · cases hk' : o.kind <;> rw [hk'] at hk <;> cases hk
      simp only [Operand.read, hk'] at h2
      cases h2
      exact ⟨rfl, rfl, hacc⟩
    · cases hk

/-- A readable operand that the port accepts is resolved and read (R136, R137). -/
theorem resolve_read_of_accepted (hsrc : ea.isSource = true) (hacc : operandAccepted ea sz s = true) :
    ∃ k, eaKind ea sz s = .ok k ∧ resolve ea sz s = .ok (⟨ea.mode, ea.reg, k, s.eaCycles ea sz⟩, eaUpdate ea sz s) ∧
      (⟨ea.mode, ea.reg, k, s.eaCycles ea sz⟩ : Operand sz.bytes).read (eaUpdate ea sz s) =
        .ok (sourceValue ea sz s, afterRead ea sz s) := by
  cases ha : eaAddress ea sz s with
  | some a =>
    refine ⟨.mem a, eaKind_mem ha, by simp [resolve, eaKind_mem ha], ?_⟩
    have : s.mem.accepts a sz.bytes = true := by simpa [operandAccepted, ha] using hacc
    simp [Operand.read, State.memRead, this, sourceValue_mem ha, afterRead, ha]
  | none =>
    rcases eaKind_of_none ha with ⟨r, rfl⟩ | ⟨r, rfl⟩ | ⟨v, rfl⟩ | ⟨r, rfl⟩
    · exact ⟨_, rfl, rfl, rfl⟩
    · cases hsrc
    · exact ⟨_, rfl, rfl, rfl⟩
    · cases hsrc

/-- A destination of the family is in memory, and not PC-relative. -/
theorem isDest_address (h : ea.isDest = true) : (∃ a, eaAddress ea sz s = some a) ∧ isPcRelative ea.mode ea.reg = false := by
  cases ea <;> first | exact ⟨⟨_, rfl⟩, rfl⟩ | cases h

theorem isSource_of_isDest (h : ea.isDest = true) : ea.isSource = true := by cases ea <;> first | rfl | cases h

end Sys2Proof.Machine
end

