-- ==== Sys2Proof/Laws/Or.lean ====
section
/-! SUPPORT. What the logical-OR family can do (43_or.md R180): each shape answers exactly one state, when the port accepts
its operand. -/

namespace Sys2Proof.Machine

/-- The state a register-dest OR answers. -/
def orToRegResult (sz : Size) (src : Ea) (dn : RegNo) (s : State) : State :=
  let x := sourceValue src sz s
  let y := s.readD dn sz.bytes
  (((afterRead src sz s).writeD dn (alu .or x y)).applyFlags (computeFlags .or x y (alu .or x y))).setCycles
    (orBaseToReg sz + s.eaCycles src sz)

/-- The state an EA-dest OR on the cells at `a` answers. -/
def orToEaResult (sz : Size) (dn : RegNo) (dst : Ea) (a : Addr) (s : State) : State :=
  let x := s.readD dn sz.bytes
  let y := s.mem.loadBytes a sz.bytes
  let u := (afterRead dst sz s).logOp .write a sz.bytes
  ({ u with mem := s.mem.storeBytes a (alu .or x y) sz.bytes }.applyFlags (computeFlags .or x y (alu .or x y))).setCycles
    (orBaseToEa sz + s.eaCycles dst sz)

variable {sz : Size} {ea : Ea} {dn : RegNo} {s t : State}

theorem orToReg_ok (h : orToReg sz ea dn s = .ok t) :
    t = orToRegResult sz ea dn s ∧ operandAccepted ea sz s = true := by
  unfold orToReg at h
  simp only [bind, Except.bind, pure, Except.pure] at h
  split at h
  · cases h
  · next ov hres =>
    obtain ⟨o, u⟩ := ov
    dsimp only at h
    split at h
    · cases h
    · next xv hread =>
      obtain ⟨x, v⟩ := xv
      obtain ⟨rfl, rfl, hacc⟩ := resolve_read_ok hres hread
      obtain ⟨-, -, hx, -, -⟩ := resolve_ok hres
      cases h
      exact ⟨by simp [orToRegResult, hx], hacc⟩

theorem orToReg_of_accepted (hsrc : ea.isSource = true) (hacc : operandAccepted ea sz s = true) :
    orToReg sz ea dn s = .ok (orToRegResult sz ea dn s) := by
  obtain ⟨k, hk, hres, hread⟩ := resolve_read_of_accepted hsrc hacc
  simp [orToReg, bind, Except.bind, hres, hread, orToRegResult, pure, Except.pure]

theorem orToEa_ok {a : Addr} (hdst : ea.isDest = true) (ha : eaAddress ea sz s = some a) (h : orToEa sz dn ea s = .ok t) :
    t = orToEaResult sz dn ea a s ∧ s.mem.accepts a sz.bytes = true := by
  unfold orToEa at h
  simp only [bind, Except.bind, pure, Except.pure] at h
  split at h
  · cases h
  · next ov hres =>
    obtain ⟨o, u⟩ := ov
    dsimp only at h
    split at h
    · cases h
    · next xv hread =>
      obtain ⟨x, v⟩ := xv
      obtain ⟨rfl, rfl, hacc⟩ := resolve_read_ok hres hread
      obtain ⟨hm, hr, hx, hk, -⟩ := resolve_ok hres
      have hacc' : s.mem.accepts a sz.bytes = true := by simpa [operandAccepted, ha] using hacc
      rw [eaKind_mem ha] at hk
      cases hk' : o.kind <;> rw [hk'] at hk <;> cases hk
      have hpc := (isDest_address (sz := sz) (s := s) hdst).2
      simp only [Operand.write, hk', hm, hr, hpc, State.memWrite, afterRead_mem, hacc', if_true, Bool.false_eq_true,
        if_false] at h
      cases h
      exact ⟨by simp [orToEaResult, hx, sourceValue_mem ha], hacc'⟩

theorem orToEa_of_accepted {a : Addr} (hdst : ea.isDest = true) (ha : eaAddress ea sz s = some a)
    (hacc : s.mem.accepts a sz.bytes = true) : orToEa sz dn ea s = .ok (orToEaResult sz dn ea a s) := by
  have hacc' : operandAccepted ea sz s = true := by simpa [operandAccepted, ha] using hacc
  obtain ⟨k, hk, hres, hread⟩ := resolve_read_of_accepted (isSource_of_isDest hdst) hacc'
  rw [eaKind_mem ha] at hk
  cases hk
  have hpc := (isDest_address (sz := sz) (s := s) hdst).2
  simp [orToEa, bind, Except.bind, hres, hread, orToEaResult, pure, Except.pure, Operand.write, hpc, State.memWrite, hacc,
    sourceValue_mem ha]

theorem bytes_le_four (sz : Size) : sz.bytes ≤ 4 := by cases sz <;> decide

/-- What the register-dest shape computes (R180 to R183). -/
theorem orToRegResult_spec (sz : Size) (ea : Ea) (dn : RegNo) (s : State) :
    OrToRegAfter sz (orBaseToReg sz) ea dn s (orToRegResult sz ea dn s) := by
  refine ⟨?_, ?_, ?_, ?_, ?_, rfl⟩
  · simp only [orToRegResult, setCycles_readD, applyFlags_readD]
    rw [readD_writeD_self _ _ _ (bytes_le_four sz)]
    rfl
  · simp only [orToRegResult, setCycles_d, applyFlags_d, get_writeD, if_pos, TV.setLow_val_above, afterRead_d]
  · simp only [orToRegResult, setCycles_d, applyFlags_d, get_writeD, if_pos, TV.setLow_t_above, afterRead_d]
  · have e : ∀ r, (orToRegResult sz ea dn s).getA r = (eaUpdate ea sz s).getA r := fun r => by simp [orToRegResult]
    intro r
    rw [e]
    exact eaUpdate_stepped ea sz s r
  · obtain ⟨c, v, z, nf, x, fc, fv, fz, fn, fx, hi⟩ := applyFlags_logical
      ((afterRead ea sz s).writeD dn (alu .or (sourceValue ea sz s) (s.readD dn sz.bytes)))
      ((sourceValue ea sz s).tainted || (s.readD dn sz.bytes).tainted)
      (alu .or (sourceValue ea sz s) (s.readD dn sz.bytes))
    refine ⟨c, v, z, nf, x.trans ?_, fc, fv, fz, fn, fx.trans ?_, hi.trans ?_⟩ <;> simp [State.flagX]

/-- What the register-dest shape leaves alone (R180). -/
theorem orToRegResult_frame (sz : Size) (ea : Ea) (dn : RegNo) (s : State) :
    (∀ r, r ≠ dn → (orToRegResult sz ea dn s).d.get r = s.d.get r) ∧
    AddressRegsFrame (steppedReg ea) s (orToRegResult sz ea dn s) ∧ (orToRegResult sz ea dn s).pc = s.pc ∧
    (orToRegResult sz ea dn s).halted = s.halted ∧ (orToRegResult sz ea dn s).mem = s.mem ∧
    (orToRegResult sz ea dn s).costs = s.costs := by
  have hf := eaUpdate_addressFrame ea sz s
  refine ⟨fun r hr => ?_, ⟨fun r hr => ?_, fun hs => ?_, fun hs => ?_⟩, by simp [orToRegResult], by simp [orToRegResult],
    by simp [orToRegResult], by simp [orToRegResult]⟩
  · simp only [orToRegResult, setCycles_d, applyFlags_d, get_writeD, if_neg hr, afterRead_d]
  · rw [← hf.1 r hr]; simp [orToRegResult]
  · rw [← hf.2.1 hs]; simp [orToRegResult]
  · rw [← hf.2.2 hs]; simp [orToRegResult]

/-- What the EA-dest shape computes (R180, R184 to R186). -/
theorem orToEaResult_spec {a : Addr} (hm : s.mem.wf) (ha : eaAddress ea sz s = some a)
    (hacc : s.mem.accepts a sz.bytes = true) : OrToEaAfter sz (orBaseToEa sz) dn ea s (orToEaResult sz dn ea a s) := by
  intro b hb
  obtain rfl : a = b := Option.some.inj (ha.symm.trans hb)
  have h4 := bytes_le_four sz
  refine ⟨loadBytes_storeBytes hm _ (accepts_allMapped hacc) (by omega), by simp [orToEaResult], fun r => ?_, ?_, rfl⟩
  · have e : (orToEaResult sz dn ea a s).getA r = (afterRead ea sz s).getA r := by
      simp only [orToEaResult, setCycles_getA, applyFlags_getA]
      rfl
    rw [e, afterRead_getA]
    exact eaUpdate_stepped ea sz s r
  obtain ⟨c, v, z, nf, x, fc, fv, fz, fn, fx, hi⟩ := applyFlags_logical
    { (afterRead ea sz s).logOp .write a sz.bytes with
      mem := s.mem.storeBytes a (alu .or (s.readD dn sz.bytes) (s.mem.loadBytes a sz.bytes)) sz.bytes }
    ((s.readD dn sz.bytes).tainted || (s.mem.loadBytes a sz.bytes).tainted)
    (alu .or (s.readD dn sz.bytes) (s.mem.loadBytes a sz.bytes))
  refine ⟨c, v, z, nf, x.trans ?_, fc, fv, fz, fn, fx.trans ?_, hi.trans ?_⟩ <;> simp [State.flagX]

/-- What the EA-dest shape leaves alone (R180): X and its taint, `SR[15:5]`, and all but the stored bytes. -/
theorem orToEaResult_frame (sz : Size) (ea : Ea) (dn : RegNo) (a : Addr) (s : State) :
    (orToEaResult sz dn ea a s).d = s.d ∧ AddressRegsFrame (steppedReg ea) s (orToEaResult sz dn ea a s) ∧
    (orToEaResult sz dn ea a s).pc = s.pc ∧ (orToEaResult sz dn ea a s).halted = s.halted ∧
    (orToEaResult sz dn ea a s).costs = s.costs ∧ (orToEaResult sz dn ea a s).mem.map = s.mem.map ∧
    (orToEaResult sz dn ea a s).sr.extractLsb' 5 11 = s.sr.extractLsb' 5 11 ∧
    (orToEaResult sz dn ea a s).flagX = s.flagX ∧ (orToEaResult sz dn ea a s).ft.getLsbD 4 = s.ft.getLsbD 4 ∧
    ∀ b : Addr, (∀ i, i < sz.bytes → b ≠ a + BitVec.ofNat 32 i) →
      (orToEaResult sz dn ea a s).mem.cell b = s.mem.cell b := by
  have hf := eaUpdate_addressFrame ea sz s
  obtain ⟨-, -, -, -, x, -, -, -, -, fx, hi⟩ := applyFlags_logical
    { (afterRead ea sz s).logOp .write a sz.bytes with
      mem := s.mem.storeBytes a (alu .or (s.readD dn sz.bytes) (s.mem.loadBytes a sz.bytes)) sz.bytes }
    ((s.readD dn sz.bytes).tainted || (s.mem.loadBytes a sz.bytes).tainted)
    (alu .or (s.readD dn sz.bytes) (s.mem.loadBytes a sz.bytes))
  refine ⟨by simp [orToEaResult], ⟨fun r hr => ?_, fun hs => ?_, fun hs => ?_⟩, by simp [orToEaResult],
    by simp [orToEaResult], by simp [orToEaResult], by simp [orToEaResult], hi.trans (by simp), x.trans (by simp [State.flagX]), fx.trans (by simp),
    fun b hb => cell_storeBytes_outside _ _ _ _ _ hb⟩
  · rw [← hf.1 r hr, ← afterRead_getA]
    simp only [orToEaResult, setCycles_getA, applyFlags_getA]
    rfl
  · rw [← hf.2.1 hs]; simp [orToEaResult]
  · rw [← hf.2.2 hs]; simp [orToEaResult]

/-- The port refuses the operand: both shapes end with its fault (R180). -/
theorem or_of_refused {a : Addr} (ha : eaAddress ea sz s = some a) (hacc : s.mem.accepts a sz.bytes = false) :
    orToReg sz ea dn s = .error (.addressingFault a sz.bytes .read) ∧
    orToEa sz dn ea s = .error (.addressingFault a sz.bytes .read) := by
  constructor <;>
  simp [orToReg, orToEa, bind, Except.bind, resolve, eaKind_mem ha, Operand.read, State.memRead, hacc]

end Sys2Proof.Machine
end

