-- ==== Sys2Proof/Laws/Exec.lean ====
section
/-! SUPPORT. Said once: every instruction has one of five shapes, and what `exec` answers for each. -/

namespace Sys2Proof.Machine

/-- The register-dest OR of a size. -/
def mkOrToReg (sz : Size) (src : Ea) (dn : RegNo) : Instr :=
  match sz with
  | .byte => .orBToReg src dn
  | .word => .orWToReg src dn
  | .long => .orLToReg src dn

/-- The EA-dest OR of a size. -/
def mkOrToEa (sz : Size) (dn : RegNo) (dst : Ea) : Instr :=
  match sz with
  | .byte => .orBToEa dn dst
  | .word => .orWToEa dn dst
  | .long => .orLToEa dn dst

/-- The byte transfers; `long` as bit 6 of the opcode word. -/
def mkMovepToReg (long : Bool) (d16 : BitVec 16) (ay dx : RegNo) : Instr :=
  if long then .movepLToReg d16 ay dx else .movepWToReg d16 ay dx
def mkMovepToMem (long : Bool) (dx : RegNo) (d16 : BitVec 16) (ay : RegNo) : Instr :=
  if long then .movepLToMem dx d16 ay else .movepWToMem dx d16 ay

/-- How many bytes a byte transfer moves, and its cycles (44_movep.md R190). -/
def movepBytes (long : Bool) : Nat := if long then 4 else 2
def movepCycles (s : State) (long : Bool) : Nat := if long then s.costs.movepLong else s.costs.movepWord

/-- The flag-byte instruction of an operator. -/
def mkCcr (op : CcrOp) (imm16 : BitVec 16) : Instr :=
  match op with
  | .or => .oriCcr imm16
  | .and => .andiCcr imm16
  | .eor => .eoriCcr imm16

/-- Every instruction has one of the five shapes. -/
theorem instr_shape (i : Instr) :
    (∃ sz src dn, i = mkOrToReg sz src dn) ∨ (∃ sz dn dst, i = mkOrToEa sz dn dst) ∨
    (∃ l d16 ay dx, i = mkMovepToReg l d16 ay dx) ∨ (∃ l dx d16 ay, i = mkMovepToMem l dx d16 ay) ∨
    ∃ op imm16, i = mkCcr op imm16 := by
  cases i with
  | orBToReg a b => exact .inl ⟨.byte, a, b, rfl⟩
  | orWToReg a b => exact .inl ⟨.word, a, b, rfl⟩
  | orLToReg a b => exact .inl ⟨.long, a, b, rfl⟩
  | orBToEa a b => exact .inr (.inl ⟨.byte, a, b, rfl⟩)
  | orWToEa a b => exact .inr (.inl ⟨.word, a, b, rfl⟩)
  | orLToEa a b => exact .inr (.inl ⟨.long, a, b, rfl⟩)
  | movepWToReg a b c => exact .inr (.inr (.inl ⟨false, a, b, c, rfl⟩))
  | movepLToReg a b c => exact .inr (.inr (.inl ⟨true, a, b, c, rfl⟩))
  | movepWToMem a b c => exact .inr (.inr (.inr (.inl ⟨false, a, b, c, rfl⟩)))
  | movepLToMem a b c => exact .inr (.inr (.inr (.inl ⟨true, a, b, c, rfl⟩)))
  | oriCcr a => exact .inr (.inr (.inr (.inr ⟨.or, a, rfl⟩)))
  | andiCcr a => exact .inr (.inr (.inr (.inr ⟨.and, a, rfl⟩)))
  | eoriCcr a => exact .inr (.inr (.inr (.inr ⟨.eor, a, rfl⟩)))

theorem exec_mkOrToReg (sz : Size) (src : Ea) (dn : RegNo) (s : State) :
    exec (mkOrToReg sz src dn) s = deliver (orToReg sz src dn s) := by cases sz <;> rfl

theorem exec_mkOrToEa (sz : Size) (dn : RegNo) (dst : Ea) (s : State) :
    exec (mkOrToEa sz dn dst) s = deliver (orToEa sz dn dst s) := by cases sz <;> rfl

theorem exec_mkMovepToReg (l : Bool) (d16 : BitVec 16) (ay dx : RegNo) (s : State) :
    exec (mkMovepToReg l d16 ay dx) s = deliver (movepToReg (movepBytes l) (movepCycles s l) d16 ay dx s) := by
  cases l <;> rfl

theorem exec_mkMovepToMem (l : Bool) (dx : RegNo) (d16 : BitVec 16) (ay : RegNo) (s : State) :
    exec (mkMovepToMem l dx d16 ay) s = deliver (movepToMem (movepBytes l) (movepCycles s l) dx d16 ay s) := by
  cases l <;> rfl

theorem exec_mkCcr (op : CcrOp) (imm16 : BitVec 16) (s : State) :
    exec (mkCcr op imm16) s =
      .next ((s.flagByteWrite op ((imm16 &&& Config.flagMask).setWidth 5)).setCycles ccrImmCycles) := by
  cases op <;> rfl

/-- A well-formed EA-dest OR has a destination in memory. -/
theorem wf_mkOrToEa {sz : Size} {dn : RegNo} {dst : Ea} (h : (mkOrToEa sz dn dst).wf = true) : dst.isDest = true := by
  cases sz <;> exact h

/-- A well-formed register-dest OR has a legal source. -/
theorem wf_mkOrToReg {sz : Size} {src : Ea} {dn : RegNo} (h : (mkOrToReg sz src dn).wf = true) : src.isSource = true := by
  cases sz <;> exact (Bool.and_eq_true _ _ ▸ h).1

/-- What `exec` of a well-formed instruction answers when it answers a next state. -/
theorem exec_next {i : Instr} {s t : State} (hi : i.wf = true) (h : exec i s = .next t) :
    (∃ sz src dn, i = mkOrToReg sz src dn ∧ operandAccepted src sz s = true ∧ t = orToRegResult sz src dn s) ∨
    (∃ sz dn dst a, i = mkOrToEa sz dn dst ∧ dst.isDest = true ∧ eaAddress dst sz s = some a ∧
      s.mem.accepts a sz.bytes = true ∧ t = orToEaResult sz dn dst a s) ∨
    (∃ l d16 ay dx, i = mkMovepToReg l d16 ay dx ∧ lanesAccepted s.mem (movepBase s ay d16) (movepBytes l) = true ∧
      t = ((logLanes s .read (movepBase s ay d16) (movepBytes l)).writeD dx
        (laneValue s.mem (movepBase s ay d16) (movepBytes l))).setCycles (movepCycles s l)) ∨
    (∃ l dx d16 ay, i = mkMovepToMem l dx d16 ay ∧
      lanesAccepted s.mem (movepBase s ay d16) (movepBytes l) = true ∧
      t = { logLanes s .write (movepBase s ay d16) (movepBytes l) with
        mem := storeLanes s.mem (movepBase s ay d16) (s.readD dx (movepBytes l)) (movepBytes l) }.setCycles
          (movepCycles s l)) ∨
    (∃ op imm16, i = mkCcr op imm16 ∧
      t = (s.flagByteWrite op ((imm16 &&& Config.flagMask).setWidth 5)).setCycles ccrImmCycles) := by
  rcases instr_shape i with ⟨sz, src, dn, rfl⟩ | ⟨sz, dn, dst, rfl⟩ | ⟨l, d16, ay, dx, rfl⟩ | ⟨l, dx, d16, ay, rfl⟩ |
    ⟨op, imm16, rfl⟩
  · rw [exec_mkOrToReg, deliver_next] at h
    exact .inl ⟨sz, src, dn, rfl, (orToReg_ok h).2, (orToReg_ok h).1⟩
  · rw [exec_mkOrToEa, deliver_next] at h
    have hd := wf_mkOrToEa hi
    obtain ⟨⟨a, ha⟩, -⟩ := isDest_address (sz := sz) (s := s) hd
    exact .inr (.inl ⟨sz, dn, dst, a, rfl, hd, ha, (orToEa_ok hd ha h).2, (orToEa_ok hd ha h).1⟩)
  · rw [exec_mkMovepToReg, deliver_next] at h
    exact .inr (.inr (.inl ⟨l, d16, ay, dx, rfl, movepToReg_ok h⟩))
  · rw [exec_mkMovepToMem, deliver_next] at h
    exact .inr (.inr (.inr (.inl ⟨l, dx, d16, ay, rfl, movepToMem_ok h⟩)))
  · rw [exec_mkCcr] at h
    cases h
    exact .inr (.inr (.inr (.inr ⟨op, imm16, rfl, rfl⟩)))

/-- The one way a well-formed instruction stops: the port refuses an operation (R213). -/
theorem exec_fault {i : Instr} {s : State} {f : Fault} (hi : i.wf = true) (h : exec i s = .fault f) :
    ∃ a n k, f = .addressingFault a n k := by
  rcases instr_shape i with ⟨sz, src, dn, rfl⟩ | ⟨sz, dn, dst, rfl⟩ | ⟨l, d16, ay, dx, rfl⟩ | ⟨l, dx, d16, ay, rfl⟩ |
    ⟨op, imm16, rfl⟩
  · rw [exec_mkOrToReg, deliver_fault] at h
    cases ha : operandAccepted src sz s with
    | true => rw [orToReg_of_accepted (wf_mkOrToReg hi) ha] at h; cases h
    | false =>
      unfold operandAccepted at ha
      split at ha
      · next a he =>
        rw [(or_of_refused he ha).1] at h
        cases h
        exact ⟨_, _, _, rfl⟩
      · cases ha
  · rw [exec_mkOrToEa, deliver_fault] at h
    have hd := wf_mkOrToEa hi
    obtain ⟨⟨a, he⟩, -⟩ := isDest_address (sz := sz) (s := s) hd
    cases ha : s.mem.accepts a sz.bytes with
    | true => rw [orToEa_of_accepted hd he ha] at h; cases h
    | false =>
      rw [(or_of_refused he ha).2] at h
      cases h
      exact ⟨_, _, _, rfl⟩
  · rw [exec_mkMovepToReg, deliver_fault] at h
    cases ha : lanesAccepted s.mem (movepBase s ay d16) (movepBytes l) with
    | true => rw [movepToReg_of_accepted ha] at h; cases h
    | false =>
      obtain ⟨j, hj, h1, h2⟩ := lanes_first_refused ha
      simp only [movepToReg, bind, Except.bind, (lanes_refused (s.d.get dx) s _ hj h1 h2).1] at h
      cases h
      exact ⟨_, _, _, rfl⟩
  · rw [exec_mkMovepToMem, deliver_fault] at h
    cases ha : lanesAccepted s.mem (movepBase s ay d16) (movepBytes l) with
    | true => rw [movepToMem_of_accepted ha] at h; cases h
    | false =>
      obtain ⟨j, hj, h1, h2⟩ := lanes_first_refused ha
      simp only [movepToMem, bind, Except.bind, (lanes_refused (s.readD dx (movepBytes l)) s _ hj h1 h2).2] at h
      cases h
      exact ⟨_, _, _, rfl⟩
  · rw [exec_mkCcr] at h
    cases h

/-- No meaning refuses. -/
theorem exec_ne_refused (i : Instr) (s : State) (r : Refusal) : exec i s ≠ .refused r := by
  rcases instr_shape i with ⟨sz, src, dn, rfl⟩ | ⟨sz, dn, dst, rfl⟩ | ⟨l, d16, ay, dx, rfl⟩ | ⟨l, dx, d16, ay, rfl⟩ |
    ⟨op, imm16, rfl⟩
  · rw [exec_mkOrToReg]; exact deliver_not_refused
  · rw [exec_mkOrToEa]; exact deliver_not_refused
  · rw [exec_mkMovepToReg]; exact deliver_not_refused
  · rw [exec_mkMovepToMem]; exact deliver_not_refused
  · rw [exec_mkCcr]; exact fun h => by cases h

end Sys2Proof.Machine
end

