-- ==== Sys2Proof/Laws/PerInstr.lean ====
section
/-! SUPPORT. Facts about every instruction as syntax, one lemma per constructor. -/

namespace Sys2Proof.Laws.DispatchesToForm

/-- The opcode word of a well-formed instruction's encoding is registered to its own form, and the encoding has exactly
the extension words that opcode word announces (30_encoding.md R80, R89). -/
def Statement (i : Instr) : Prop :=
  i.wf = true → dispatchTable ((encode i).headD 0) = some i.form ∧
    (encode i).length = 1 + i.form.extWords ((encode i).headD 0)

/-- A source operand's fields are legal for the register-dest rows. -/
theorem eaLegal_source {ea : Ea} (sz : Size) (h : ea.isSource = true) : (Form.orToReg sz).eaLegal ea.mode ea.reg = true := by
  cases ea <;> first | rfl | cases h

/-- A destination operand's fields are legal for the EA-dest rows. -/
theorem eaLegal_dest {ea : Ea} (sz : Size) (h : ea.isDest = true) : (Form.orToEa sz).eaLegal ea.mode ea.reg = true := by
  cases ea <;> first | rfl | cases h

/-- An operand's extension words are as many as its EA field announces (R85). -/
theorem extWords_length (ea : Ea) (sz : Size) (h : ea.isSource = true) :
    (ea.extWords sz).length = eaExtWords sz ea.mode ea.reg := by
  cases ea <;> first | rfl | cases h
  cases sz <;> rfl

theorem orToReg_head (sz : Size) (src : Ea) (dn : RegNo) (h : src.isSource = true) :
    dispatchTable (orOpcode (.orToReg sz) dn src) = some (.orToReg sz) ∧
    (src.extWords sz).length + 1 = 1 + (Form.orToReg sz).extWords (orOpcode (.orToReg sz) dn src) := by
  have hf := (orWord_fields sz dn src.mode src.reg).1 (eaLegal_source sz h)
  simp only [Form.extWords, orOpcode, hf.1, hf.2.2.1, hf.2.2.2, extWords_length src sz h, Nat.add_comm, and_self]

theorem orToEa_head (sz : Size) (dst : Ea) (dn : RegNo) (h : dst.isDest = true) :
    dispatchTable (orOpcode (.orToEa sz) dn dst) = some (.orToEa sz) ∧
    (dst.extWords sz).length + 1 = 1 + (Form.orToEa sz).extWords (orOpcode (.orToEa sz) dn dst) := by
  have hs : dst.isSource = true := by cases dst <;> first | rfl | cases h
  have hf := (orWord_fields sz dn dst.mode dst.reg).2 (eaLegal_dest sz h)
  simp only [Form.extWords, orOpcode, hf.1, hf.2.2.1, hf.2.2.2, extWords_length dst sz hs, Nat.add_comm, and_self]

theorem orBToReg (src : Ea) (dn : RegNo) : Statement (.orBToReg src dn) := fun h => by
  simp only [Instr.wf, Bool.and_eq_true] at h
  exact orToReg_head .byte src dn h.1

theorem orWToReg (src : Ea) (dn : RegNo) : Statement (.orWToReg src dn) := fun h => by
  simp only [Instr.wf, Bool.and_eq_true] at h
  exact orToReg_head .word src dn h.1

theorem orLToReg (src : Ea) (dn : RegNo) : Statement (.orLToReg src dn) := fun h => by
  simp only [Instr.wf, Bool.and_eq_true] at h
  exact orToReg_head .long src dn h.1

theorem orBToEa (dn : RegNo) (dst : Ea) : Statement (.orBToEa dn dst) := fun h => orToEa_head .byte dst dn h
theorem orWToEa (dn : RegNo) (dst : Ea) : Statement (.orWToEa dn dst) := fun h => orToEa_head .word dst dn h
theorem orLToEa (dn : RegNo) (dst : Ea) : Statement (.orLToEa dn dst) := fun h => orToEa_head .long dst dn h

theorem movepWToReg (d16 : BitVec 16) (ay dx : RegNo) : Statement (.movepWToReg d16 ay dx) :=
  fun _ => ⟨(movepWord_fields false dx ay).1.1, rfl⟩
theorem movepLToReg (d16 : BitVec 16) (ay dx : RegNo) : Statement (.movepLToReg d16 ay dx) :=
  fun _ => ⟨(movepWord_fields true dx ay).1.1, rfl⟩
theorem movepWToMem (dx : RegNo) (d16 : BitVec 16) (ay : RegNo) : Statement (.movepWToMem dx d16 ay) :=
  fun _ => ⟨(movepWord_fields false dx ay).2.1, rfl⟩
theorem movepLToMem (dx : RegNo) (d16 : BitVec 16) (ay : RegNo) : Statement (.movepLToMem dx d16 ay) :=
  fun _ => ⟨(movepWord_fields true dx ay).2.1, rfl⟩

theorem oriCcr (imm16 : BitVec 16) : Statement (.oriCcr imm16) := fun _ => ⟨ccrWord_dispatch.1, rfl⟩
theorem andiCcr (imm16 : BitVec 16) : Statement (.andiCcr imm16) := fun _ => ⟨ccrWord_dispatch.2.1, rfl⟩
theorem eoriCcr (imm16 : BitVec 16) : Statement (.eoriCcr imm16) := fun _ => ⟨ccrWord_dispatch.2.2, rfl⟩

end Sys2Proof.Laws.DispatchesToForm
end

