-- ==== Sys2Proof/Laws/Taint.lean ====
section
/-! SUPPORT. Laws of taint: agreement of states up to tainted bytes, operation by operation, and that the operations on a
state with nothing tainted taint nothing (10_state.md R36, 41_ea_resolver.md R140). -/

namespace Sys2Proof.Machine

variable {n m : Nat}

/-- Lanes are equal when value and taint are. -/
theorem lane_eta {v w : TV n} (k) : (v.lane k = w.lane k) ↔ (v.lane k).val = (w.lane k).val ∧ (v.lane k).t = (w.lane k).t := by
  constructor
  · intro h; rw [h]; exact ⟨rfl, rfl⟩
  · rintro ⟨a, b⟩; exact TV.ext_parts a b

/-- Values agree when their lanes do. -/
theorem agree_lane_iff {v w : TV n} : AgreeTV v w ↔ ∀ k, k < n → AgreeTV (v.lane k) (w.lane k) := by
  have l0 : ∀ u : TV 1, u.lane 0 = u := fun u => by apply TV.ext_parts <;> simp [TV.lane]
  have bit : ∀ (u : TV n) k, (u.lane k).t.getLsbD 0 = u.t.getLsbD k := fun u k => by simp [TV.lane]
  constructor
  · intro h k hk
    refine ⟨by simp [TV.lane, h.1], fun j hj hf => ?_⟩
    obtain rfl : j = 0 := by omega
    rw [l0, l0]; rw [bit] at hf; exact h.2 k hk hf
  · intro h
    refine ⟨?_, fun k hk hf => ?_⟩
    · apply BitVec.eq_of_getLsbD_eq; intro i hi
      rw [← bit, ← bit, (h i hi).1]
    · have := (h k hk).2 0 (by decide) (by rw [bit]; exact hf)
      rwa [l0, l0] at this

/-- Untainted values that agree are equal. -/
theorem AgreeTV.eq_of_clean {v w : TV n} (h : AgreeTV v w) (hv : v.tainted = false) : v = w := by
  have h0 := TV.tainted_eq_false.1 hv
  apply TV.ext_lanes; intro k hk
  rw [lane_eta]
  exact ⟨h.2 k hk (by simp [h0]), by simp [TV.lane, h.1]⟩
theorem AgreeTV.refl (v : TV n) : AgreeTV v v := ⟨rfl, fun _ _ _ => rfl⟩
theorem AgreeTV.tainted {v w : TV n} (h : AgreeTV v w) : v.tainted = w.tainted := by simp [TV.tainted, h.1]

/-- Results with a smeared taint agree when they are equal wherever nothing was tainted (42 R159). -/
theorem agree_smeared (b : Bool) (x y : BitVec (8*n)) (h : b = false → x = y) : AgreeTV (⟨x, TV.smear b n⟩ : TV n) ⟨y, TV.smear b n⟩ := by
  cases b with
  | false => rw [h rfl]; exact AgreeTV.refl _
  | true => refine ⟨rfl, fun k hk hf => ?_⟩; simp [TV.smear, hk] at hf

/-- Lanes of a narrow read and of a narrow write (10 R24). -/
theorem lane_low (v : TV n) (k) (hk : k < m) : (v.low m).lane k = v.lane k := by
  apply TV.ext_parts <;> apply BitVec.eq_of_getLsbD_eq <;> intro i hi
  · have hi : i < 8 := hi
    simp only [TV.lane, TV.low, BitVec.getLsbD_setWidth, BitVec.getLsbD_ushiftRight, show 8 * k + i < 8 * m by omega, decide_true, Bool.true_and]
  · have hi : i = 0 := by omega
    subst hi; simp [TV.lane, TV.low, hk]
theorem AgreeTV.low {v w : TV n} (h : AgreeTV v w) : AgreeTV (v.low m) (w.low m) := by
  rw [agree_lane_iff]; intro k hk; rw [lane_low _ _ hk, lane_low _ _ hk]
  by_cases hn : k < n
  · exact agree_lane_iff.1 h k hn
  · have : ∀ u : TV n, u.lane k = ⟨0, 0⟩ := fun u => by
      apply TV.ext_parts <;> apply BitVec.eq_of_getLsbD_eq <;> intro i hi <;> simp [TV.lane]
      all_goals (try intro _); apply BitVec.getLsbD_of_ge; omega
    rw [this, this]; exact AgreeTV.refl _
theorem lane_setLow (v : TV n) (w : TV m) (k) (hk : k < n) : (v.setLow w).lane k = if k < m then w.lane k else v.lane k := by
  split <;> apply TV.ext_parts <;> apply BitVec.eq_of_getLsbD_eq <;> intro i hi
  · have hi : i < 8 := hi
    simp [TV.lane, TV.setLow, show 8 * k + i < 8 * m by omega, show 8 * k + i < 8 * n by omega]
  · have hi : i = 0 := by omega
    subst hi; rename_i h; simp [TV.lane, TV.setLow, hk, h]
  · have hi : i < 8 := hi
    have : w.val.getLsbD (8 * k + i) = false := BitVec.getLsbD_of_ge _ _ (by omega)
    simp [TV.lane, TV.setLow, show ¬ (8 * k + i < 8 * m) by omega, show 8 * k + i < 8 * n by omega, this, show 8 * m + (8 * k + i - 8 * m) = 8 * k + i by omega]
  · have hi : i = 0 := by omega
    subst hi; rename_i h
    have : w.t.getLsbD k = false := BitVec.getLsbD_of_ge _ _ (by omega)
    simp [TV.lane, TV.setLow, hk, h, this, show m + (k - m) = k by omega]
theorem AgreeTV.setLow {v w : TV n} {x y : TV m} (h : AgreeTV v w) (h' : AgreeTV x y) : AgreeTV (v.setLow x) (w.setLow y) := by
  rw [agree_lane_iff]; intro k hk; rw [lane_setLow _ _ _ hk, lane_setLow _ _ _ hk]
  split
  · next hm => exact agree_lane_iff.1 h' k hm
  · exact agree_lane_iff.1 h k hk

/-- OR of values that agree. -/
theorem alu_agree (sz : Size) {x x' y y' : TV sz.bytes} (hx : AgreeTV x x') (hy : AgreeTV y y') : AgreeTV (alu .or x y) (alu .or x' y') := by
  show AgreeTV (⟨_, TV.smear _ _⟩ : TV sz.bytes) ⟨_, TV.smear (x'.tainted || y'.tainted) _⟩
  rw [← hx.tainted, ← hy.tainted]
  apply agree_smeared
  intro hb
  simp only [Bool.or_eq_false_iff] at hb
  rw [hx.eq_of_clean hb.1, hy.eq_of_clean hb.2]

section
variable {s s' : State}

/-- States that agree are in the same mode. -/
theorem Agree.sup (h : Agree s s') : s.supervisor = s'.supervisor := (upper_of_extract h.2.2.2.2.2.1).1

/-- Loads from memories that agree. -/
theorem load_agree {m m' : Memory} (h : ∀ a, AgreeTV (m.cell a) (m'.cell a)) (a : Addr) (n) : AgreeTV (m.loadBytes a n) (m'.loadBytes a n) := by
  rw [agree_lane_iff]; intro k hk; rw [lane_loadBytes _ _ hk, lane_loadBytes _ _ hk]; exact h _
theorem laneValue_agree {m m' : Memory} (h : ∀ a, AgreeTV (m.cell a) (m'.cell a)) (a : Addr) (n) : AgreeTV (laneValue m a n) (laneValue m' a n) := by
  rw [agree_lane_iff]; intro k hk; rw [lane_laneValue _ _ hk, lane_laneValue _ _ hk]; exact h _
theorem readD_agree (h : Agree s s') (r n) : AgreeTV (s.readD r n) (s'.readD r n) := (h.1 r).low

/-- Operands at the same address agree. -/
theorem source_agree (h : Agree s s') {ea sz} (he : eaAddress ea sz s = eaAddress ea sz s') : AgreeTV (sourceValue ea sz s) (sourceValue ea sz s') := by
  cases ea
  case dReg r => exact readD_agree h r _
  case aReg r => exact (h.2.1 r).low
  case imm v => exact AgreeTV.refl _
  all_goals
    simp only [sourceValue, ← he]
    exact load_agree h.2.2.2.2.2.2.2.2.2.2.1 _ _

/-- Address registers after writes of values that agree. -/
theorem setA_agree (h : Agree s s') (r) {v v' : TV 4} (hv : AgreeTV v v') : (∀ q, AgreeTV ((s.setA r v).getA q) ((s'.setA r v').getA q)) ∧ AgreeTV (s.setA r v).usp (s'.setA r v').usp ∧ AgreeTV (s.setA r v).ssp (s'.setA r v').ssp := by
  refine ⟨fun q => ?_, ?_, ?_⟩
  · rw [getA_setA, getA_setA]; split
    · exact hv
    · exact h.2.1 q
  · unfold State.setA; rw [← h.sup]; split
    · exact h.2.2.1
    · split
      · exact h.2.2.1
      · exact hv
  · unfold State.setA; rw [← h.sup]; split
    · exact h.2.2.2.1
    · split
      · exact hv
      · exact h.2.2.2.1

/-- Address registers after the side effect of an addressing mode (41 R135). -/
theorem upd_agree (h : Agree s s') (ea sz) : (∀ q, AgreeTV ((eaUpdate ea sz s).getA q) ((eaUpdate ea sz s').getA q)) ∧ AgreeTV (eaUpdate ea sz s).usp (eaUpdate ea sz s').usp ∧ AgreeTV (eaUpdate ea sz s).ssp (eaUpdate ea sz s').ssp := by
  cases ea
  case postInc r =>
    apply setA_agree h; rw [← (h.2.1 r).tainted]; apply agree_smeared; intro hb; rw [(h.2.1 r).eq_of_clean hb]
  case preDec r =>
    apply setA_agree h; rw [← (h.2.1 r).tainted]; apply agree_smeared; intro hb; rw [(h.2.1 r).eq_of_clean hb]
  all_goals exact ⟨h.2.1, h.2.2.1, h.2.2.2.1⟩


/-- Flags after a logical kind, when the results are equal wherever no operand was tainted. -/
theorem flags_agree {u u' v v' : State} {n} {r r' : BitVec (8*n)} {tc : Bool} (h : Agree u u') (hr : tc = false → r = r')
  (h1 : LogicalFlagsAfter u v r tc) (h2 : LogicalFlagsAfter u' v' r' tc) : v.sr.extractLsb' 5 11 = v'.sr.extractLsb' 5 11 ∧ v.ft = v'.ft ∧
  (∀ i, i < 5 → v.ft.getLsbD i = false → v.sr.getLsbD i = v'.sr.getLsbD i) := by
  obtain ⟨c, vv, z, nf, x, fc, fv, fz, fn, fx, hi⟩ := h1
  obtain ⟨c', vv', z', nf', x', fc', fv', fz', fn', fx', hi'⟩ := h2
  refine ⟨by rw [hi, hi', h.2.2.2.2.2.1], ?_, ?_⟩
  · apply BitVec.eq_of_getLsbD_eq
    intro i hi
    have : i = 0 ∨ i = 1 ∨ i = 2 ∨ i = 3 ∨ i = 4 := by omega
    rcases this with rfl | rfl | rfl | rfl | rfl
    · rw [fc, fc']
    · rw [fv, fv']
    · rw [fz, fz']
    · rw [fn, fn']
    · rw [fx, fx', h.2.2.2.2.2.2.1]
  · intro i hi hf
    have : i = 0 ∨ i = 1 ∨ i = 2 ∨ i = 3 ∨ i = 4 := by omega
    rcases this with rfl | rfl | rfl | rfl | rfl
    · exact c.trans c'.symm
    · exact vv.trans vv'.symm
    · have := hr (fz.symm.trans hf); exact z.trans (by rw [this]; exact z'.symm)
    · have := hr (fn.symm.trans hf); exact nf.trans (by rw [this]; exact nf'.symm)
    · refine x.trans (Eq.trans ?_ x'.symm)
      exact h.2.2.2.2.2.2.2.1 4 (by decide) (by rw [← fx]; exact hf)


/-- The port accepts the same accesses. -/
theorem acc_agree (h : Agree s s') (a n) : s.mem.accepts a n = s'.mem.accepts a n := accepts_congr h.2.2.2.2.2.2.2.2.2.1 a n

end

theorem load_clean {s : State} (hc : AllClean s) {a : Addr} {n} (h : s.mem.accepts a n = true) : (s.mem.loadBytes a n).t = 0 := by
  apply TV.t_eq_zero_of_lanes
  intro k hk
  rw [lane_loadBytes _ _ hk]
  exact hc.2.2.2.2.2 _ (mapped_of_allMapped (accepts_allMapped h) (by omega))
theorem source_clean {s : State} (hc : AllClean s) {ea sz} (hs : ea.isSource = true) (h : operandAccepted ea sz s = true) : (sourceValue ea sz s).t = 0 := by
  cases he : eaAddress ea sz s with
  | some a =>
    rw [sourceValue_mem he]
    simp only [operandAccepted, he] at h
    exact load_clean hc h
  | none =>
    rcases eaKind_of_none he with ⟨r, rfl⟩ | ⟨r, rfl⟩ | ⟨r, rfl⟩ | ⟨r, rfl⟩
    · simp [sourceValue, State.readD, TV.low, hc.1 r]
    · cases hs
    · rfl
    · cases hs
theorem eaUpdate_clean {s : State} (hc : AllClean s) (ea sz) : (∀ r, ((eaUpdate ea sz s).getA r).t = 0) ∧ (eaUpdate ea sz s).usp.t = 0 ∧ (eaUpdate ea sz s).ssp.t = 0 := by
  rcases eaUpdate_cases ea sz s with ⟨-, e⟩ | ⟨r, v, -, e⟩
  · rw [e]; exact ⟨hc.2.1, hc.2.2.1, hc.2.2.2.1⟩
  · have ht : (s.getA r).tainted = false := TV.tainted_eq_false.2 (hc.2.1 r)
    rw [e, ht]
    refine ⟨fun q => ?_, ?_, ?_⟩
    · rw [getA_setA]; split
      · rfl
      · exact hc.2.1 q
    · unfold State.setA; split
      · exact hc.2.2.1
      · split
        · exact hc.2.2.1
        · rfl
    · unfold State.setA; split
      · exact hc.2.2.2.1
      · split
        · rfl
        · exact hc.2.2.2.1
theorem ft0 {s t : State} {n} {res : BitVec (8*n)} (h : LogicalFlagsAfter s t res false) (hs : s.ft = 0) : t.ft = 0 := by
  obtain ⟨c, v, z, nf, x, fc, fv, fz, fn, fx, hi⟩ := h
  apply BitVec.eq_of_getLsbD_eq
  intro i hi
  have : i = 0 ∨ i = 1 ∨ i = 2 ∨ i = 3 ∨ i = 4 := by omega
  rcases this with rfl | rfl | rfl | rfl | rfl
  · exact fc
  · exact fv
  · exact fz
  · exact fn
  · rw [fx, hs]

end Sys2Proof.Machine
end

