-- ==== Sys2Proof/Tests/Slice0.lean ====
section
/-! SUPPORT. The model's own tests. Expected results are those of 95_test_vectors.md and 30_encoding.md R95, named in
each comment; then, for each obligation with hypotheses, a witness that meets them. -/

namespace Sys2Proof.Tests

open Sys2Proof Sys2Proof.Machine

/-! ### WellFormed refuses ill-formed terms -/

theorem test_wf_refuses_address_register_source : (Instr.orWToReg (.aReg 0) 0).wf = false := by decide
theorem test_wf_refuses_unnamed_source : (Instr.orBToReg (.unnamed 5) 0).wf = false := by decide
theorem test_wf_refuses_wide_byte_immediate : (Instr.orBToReg (.imm 0x10000) 0).wf = false := by decide
theorem test_wf_refuses_wide_word_immediate : (Instr.orWToReg (.imm 0x10000) 0).wf = false := by decide
theorem test_wf_refuses_register_destination :
    (Instr.orBToEa 0 (.dReg 1)).wf = false ∧ (Instr.orWToEa 0 (.aReg 1)).wf = false := by decide
theorem test_wf_refuses_pc_destination :
    (Instr.orWToEa 0 (.pcDisp 2)).wf = false ∧ (Instr.orLToEa 0 (.pcIndex ⟨false, 0, false, 0, 0⟩)).wf = false := by decide
theorem test_wf_refuses_immediate_destination :
    (Instr.orLToEa 0 (.imm 1)).wf = false ∧ (Instr.orBToEa 0 (.unnamed 7)).wf = false := by decide
theorem test_wf_accepts_full_word_immediate : (Instr.orWToReg (.imm 0xFFFF) 7).wf = true := by decide

/-! ### Decoding: one word per constructor, its bits as 30_encoding.md R82 to R84, R95 and 95 section 2.6 lay them out -/

theorem test_decode_orBToReg : decodeWords [0b1000011000100111] = .ok (.orBToReg (.preDec 7) 3, []) := by decide
theorem test_decode_orWToReg : decodeWords [0b1000000001111100, 0x00F0] = .ok (.orWToReg (.imm 0x00F0) 0, []) := by decide
theorem test_decode_orLToReg :
    decodeWords [0b1000010010111100, 0x8000, 0x0001] = .ok (.orLToReg (.imm 0x80000001) 2, []) := by decide
theorem test_decode_orBToEa : decodeWords [0b1000000100100111] = .ok (.orBToEa 0 (.preDec 7), []) := by decide
theorem test_decode_orWToEa :
    decodeWords [0b1000001101111001, 0x0000, 0x2004] = .ok (.orWToEa 1 (.absL 0x00002004), []) := by decide
theorem test_decode_orLToEa : decodeWords [0b1000000110011000] = .ok (.orLToEa 0 (.postInc 0), []) := by decide
theorem test_decode_movepWToReg : decodeWords [0b0000010100001001, 0xFFFE] = .ok (.movepWToReg 0xFFFE 1 2, []) := by decide
theorem test_decode_movepLToReg : decodeWords [0b0000000101001000, 0x0001] = .ok (.movepLToReg 0x0001 0 0, []) := by decide
theorem test_decode_movepWToMem : decodeWords [0b0000000110001000, 0x0004] = .ok (.movepWToMem 0 0x0004 0, []) := by decide
theorem test_decode_movepLToMem : decodeWords [0b0000001111001001, 0x0000] = .ok (.movepLToMem 1 0x0000 1, []) := by decide
theorem test_decode_oriCcr : decodeWords [0x003C, 0x0010] = .ok (.oriCcr 0x0010, []) := by decide
theorem test_decode_andiCcr : decodeWords [0x023C, 0x0004] = .ok (.andiCcr 0x0004, []) := by decide
theorem test_decode_eoriCcr : decodeWords [0x0A3C, 0x00FF] = .ok (.eoriCcr 0x00FF, []) := by decide

/-- The index extension word `9804` (R86): da 1, xr 1, wl 1, d8 04, and one with every ignored bit set. -/
theorem test_decode_index :
    decodeIndex 0x9804 = ⟨true, 1, true, 0, 0x04⟩ ∧ decodeIndex 0x07FC = ⟨false, 0, false, 7, 0xFC⟩ := by decide

/-- Vector F1: words that select no row. -/
theorem test_decode_unpopulated :
    [0x8008, 0x80C0, 0x81C0, 0x8100, 0x8108, 0x817A, 0x817C, 0x803D].map dispatchTable = List.replicate 8 none ∧
    [0x8148, 0x4E71, 0x007C, 0x0008, 0x0000, 0xFFFF].map dispatchTable = List.replicate 6 none := by decide

/-- 95 section 2.6: first and last populated words of the rows. -/
theorem test_first_and_last_words :
    [0x8000, 0x8E3C, 0x8040, 0x8E7C, 0x8080, 0x8EBC, 0x8110, 0x8F39].all (fun w => (dispatchTable w).isSome) = true ∧
    [0x8150, 0x8F79, 0x8190, 0x8FB9, 0x0108, 0x0F0F, 0x0148, 0x0F4F].all (fun w => (dispatchTable w).isSome) = true ∧
    [0x0188, 0x0F8F, 0x01C8, 0x0FCF].all (fun w => (dispatchTable w).isSome) = true := by decide

theorem test_decode_bytes :
    decode [0x84, 0xBC, 0x80, 0x00, 0x00, 0x00, 0xFF] = .ok (.orLToReg (.imm 0x80000000) 2, 6) ∧
    decode [0x84, 0xBC, 0x80, 0x00] = .error .truncated ∧ decode [0x4E, 0x71] = .error (.unimplementedOpcode 0x4E71) := by
  decide

/-- The host's two entry points: a table row's bits, operand words zero. -/
theorem test_decodeTableWord :
    decodeTableWord 16 0x8610 = some (.orBToReg (.ind 0) 3) ∧ decodeTableWord 32 0x0010003C = some (.oriCcr 0x0010) ∧
    decodeTableWord 16 0x80BC = some (.orLToReg (.imm 0) 0) ∧ decodeTableWord 16 0x4E71 = none := by decide

/-! ### Small states -/

/-- The value of a step's next state that `f` picks, if there is one. -/
def look {α : Type} (o : Host.Outcome State Fault Refusal) (f : State → α) : Option α :=
  match o with
  | .next t => some (f t)
  | .fault _ => none
  | .refused _ => none

/-- The fault a step ends in, if it does. -/
def faultOf (o : Host.Outcome State Fault Refusal) : Option Fault :=
  match o with
  | .next _ => none
  | .fault f => some f
  | .refused _ => none

theorem exists_next {o : Host.Outcome State Fault Refusal} (h : (look o fun _ => ()) = some ()) : ∃ t, o = .next t := by
  cases o with
  | next t => exact ⟨t, rfl⟩
  | fault f => cases h
  | refused r => cases h

/-- A memory with the regions of 95 Conventions and the listed cells (address, byte, taint). -/
def memOf (cells : List (Nat × Nat × Nat)) : Memory :=
  cells.foldl (fun m c => m.setCell (BitVec.ofNat 32 c.1) ⟨BitVec.ofNat 8 c.2.1, BitVec.ofNat 1 c.2.2⟩)
    ⟨[⟨0x1000, 0x20⟩, ⟨0x2000, 0x40⟩], []⟩

/-- Clean code bytes from `0x1000`. -/
def codeAt : Nat → List Nat → List (Nat × Nat × Nat)
  | _, [] => []
  | a, w :: ws => (a, w / 256, 0) :: (a + 1, w % 256, 0) :: codeAt (a + 2) ws

/-- A clean user-mode state at `0x1000` with the code and cells listed (95 Conventions). -/
def stateOf (code : List Nat) (cells : List (Nat × Nat × Nat)) : State :=
  { State.reset with
    d := .replicate 8 ⟨0, 0⟩, a := .replicate 7 ⟨0, 0⟩, usp := ⟨0, 0⟩, ssp := ⟨0, 0⟩, pc := 0x1000, ft := 0
    mem := memOf (codeAt 0x1000 code ++ cells) }

def withD (r : RegNo) (v : BitVec 32) (t : BitVec 4) (s : State) : State := s.writeD r (n := 4) ⟨v, t⟩
def withA (r : RegNo) (v : BitVec 32) (t : BitVec 4) (s : State) : State := s.setA r ⟨v, t⟩
def withSr (sr : BitVec 16) (ft : BitVec 5) (s : State) : State := { s with sr := sr, ft := ft }

/-! ### One step of each instruction -/

/-- Vector S1a, `OR.B (A0),D3`. -/
theorem test_step_orBToReg :
    look (step (stateOf [0x8610] [(0x2000, 0xFF, 1)] |> withD 3 0x12345678 0 |> withA 0 0x2000 0))
      (fun t => ((t.d.get 3, t.sr, t.ft), t.pc, t.cycles, t.ops)) =
    some ((⟨0x123456FF, 1⟩, 0x0008, 0b01100), 0x1002, 8, [⟨.fetch, 0x1000, 2⟩, ⟨.read, 0x2000, 1⟩]) := by decide

/-- Vector V7, `OR.B -(A7),D3`: step 2, pointer taint smeared and kept out of the data. -/
theorem test_step_orBToReg_stack :
    look (step (stateOf [0x8627] [(0x200E, 0x80, 0)] |> withD 3 0x12345678 0 |> withA 7 0x2010 1))
      (fun t => (t.d.get 3, t.usp, t.ssp, t.sr, t.ft, t.cycles)) =
    some (⟨0x123456F8, 0⟩, ⟨0x200E, 15⟩, ⟨0, 0⟩, 0x0008, 0, 10) := by decide

/-- Vector V5, `OR.W (A0)+,D1`. -/
theorem test_step_orWToReg :
    look (step (stateOf [0x8258] [(0x2000, 0x80, 0), (0x2001, 0, 1)] |> withD 1 0xF 0 |> withA 0 0x2000 0))
      (fun t => (t.d.get 1, t.getA 0, t.sr, t.ft, t.cycles)) =
    some (⟨0x800F, 3⟩, ⟨0x2002, 0⟩, 0x0008, 0b01100, 8) := by decide

/-- Vector V14, `OR.W 2(PC),D0`: the base is the address of the extension word. -/
theorem test_step_orWToReg_pc :
    look (step (stateOf [0x807A, 0x0002, 0xBEEF] [])) (fun t => (t.d.get 0, t.sr, t.pc, t.cycles)) =
    some (⟨0xBEEF, 0⟩, 0x0008, 0x1004, 12) := by decide

/-- Vector V3, `OR.L #$80000000,D2`. -/
theorem test_step_orLToReg :
    look (step (stateOf [0x84BC, 0x8000, 0x0000] [] |> withD 2 1 1)) (fun t => (t.d.get 2, t.sr, t.ft, t.pc, t.cycles)) =
    some (⟨0x80000001, 15⟩, 0x0008, 0b01100, 0x1006, 14) := by decide

/-- Vector V18, `OR.B D0,-(A7)`. -/
theorem test_step_orBToEa :
    look (step (stateOf [0x8127] [(0x2000, 0, 0)] |> withA 7 0x2002 0)) (fun t => (t.usp, t.mem.cell 0x2000, t.sr, t.cycles)) =
    some (⟨0x2000, 0⟩, ⟨0, 0⟩, 0x0004, 14) := by decide

/-- Vector V16, `OR.W D0,(A0)`. -/
theorem test_step_orWToEa :
    look (step (stateOf [0x8150] [(0x2000, 0x0F, 0), (0x2001, 0, 0)] |> withD 0 0xF0 2 |> withA 0 0x2000 0))
      (fun t => (t.mem.cell 0x2000, t.mem.cell 0x2001, t.sr, t.ft, t.cycles)) =
    some (⟨0x0F, 1⟩, ⟨0xF0, 1⟩, 0x0000, 0b01100, 12) := by decide

/-- Vector V17, `OR.L D0,(A0)+`: one resolution for the read and the write. -/
theorem test_step_orLToEa :
    look (step (stateOf [0x8198] [(0x2000, 0, 0), (0x2001, 0, 0), (0x2002, 0, 0), (0x2003, 0x10, 1)]
        |> withD 0 0x80000001 0 |> withA 0 0x2000 0))
      (fun t => (t.mem.loadBytes 0x2000 4, t.getA 0, t.sr, t.ft, t.cycles)) =
    some (⟨0x80000011, 15⟩, ⟨0x2004, 0⟩, 0x0008, 0b01100, 20) := by decide

/-- Vector M3, `MOVEP.W -2(A1),D2`. -/
theorem test_step_movepWToReg :
    look (step (stateOf [0x0509, 0xFFFE] [(0x2000, 0x12, 1), (0x2001, 0x99, 1), (0x2002, 0x34, 0)]
        |> withD 2 0xFFFFFFFF 15 |> withA 1 0x2002 0))
      (fun t => (t.d.get 2, t.cycles, t.ops.map (·.addr))) =
    some (⟨0xFFFF1234, 0b1110⟩, 16, [0x1000, 0x1002, 0x2000, 0x2002]) := by decide

/-- Vector M4, `MOVEP.L 1(A0),D0`: an odd base. -/
theorem test_step_movepLToReg :
    look (step (stateOf [0x0148, 0x0001] [(0x2001, 0xDE, 0), (0x2003, 0xAD, 0), (0x2005, 0xBE, 0), (0x2007, 0xEF, 1)]
        |> withA 0 0x2000 15))
      (fun t => (t.d.get 0, t.cycles)) = some (⟨0xDEADBEEF, 1⟩, 24) := by decide

/-- Vector M1, `MOVEP.W D0,4(A0)`. -/
theorem test_step_movepWToMem :
    look (step (stateOf [0x0188, 0x0004] [(0x2005, 0, 0)] |> withD 0 0xAABBCCDD 1 |> withA 0 0x2000 0 |> withSr 0x1F 31))
      (fun t => ((t.mem.cell 0x2004, t.mem.cell 0x2005, t.mem.cell 0x2006), t.sr, t.ft, t.pc, t.cycles)) =
    some ((⟨0xCC, 0⟩, ⟨0, 0⟩, ⟨0xDD, 1⟩), 0x1F, 31, 0x1004, 16) := by decide

/-- Vector M2, `MOVEP.L D1,0(A1)`. -/
theorem test_step_movepLToMem :
    look (step (stateOf [0x03C9, 0x0000] [] |> withD 1 0x11223344 4 |> withA 1 0x2000 0))
      (fun t => (t.mem.cell 0x2000, t.mem.cell 0x2002, t.mem.cell 0x2004, t.mem.cell 0x2006, t.cycles)) =
    some (⟨0x11, 0⟩, ⟨0x22, 1⟩, ⟨0x33, 0⟩, ⟨0x44, 0⟩, 24) := by decide

/-- Vector K4, `ORI #$04,CCR`. -/
theorem test_step_oriCcr :
    look (step (stateOf [0x003C, 0x0004] [] |> withSr 0x0010 0b10100)) (fun t => (t.sr, t.ft, t.pc, t.cycles)) =
    some (0x0014, 0b10000, 0x1004, 8) := by decide

/-- Vector K2, `ANDI #$FF15,CCR`: the high byte is kept. -/
theorem test_step_andiCcr :
    look (step (stateOf [0x023C, 0xFF15] [] |> withSr 0x271F 31)) (fun t => (t.sr, t.ft, t.pc, t.cycles)) =
    some (0x2715, 0b10101, 0x1004, 8) := by decide

/-- Vector K3, `EORI #$11,CCR`. -/
theorem test_step_eoriCcr :
    look (step (stateOf [0x0A3C, 0x0011] [] |> withSr 0x0015 0b00101)) (fun t => (t.sr, t.ft, t.pc, t.cycles)) =
    some (0x0004, 0b00101, 0x1004, 8) := by decide

/-- R138, R190: the cycle tables are the caller's; with other tables a step returns other counts. -/
theorem test_step_cycle_tables :
    let c : CycleTables := ⟨.replicate 8 (.replicate 8 ⟨1, 2, 3⟩), 17, 25⟩
    look (step { (stateOf [0x8258] [] |> withA 0 0x2000 0) with costs := c }) (·.cycles) = some 6 ∧
    look (step { (stateOf [0x8198] [] |> withA 0 0x2000 0) with costs := c }) (·.cycles) = some 15 ∧
    look (step { (stateOf [0x03C9, 0] [] |> withA 1 0x2000 0) with costs := c }) (·.cycles) = some 25 := by decide

/-! ### Faults and entry points -/

/-- Vectors F1, F2. -/
theorem test_fault_unpopulated : faultOf (step (stateOf [0x4E71] [])) = some (.unimplementedOpcode 0x4E71) := by decide
theorem test_fault_odd_operand :
    faultOf (step (stateOf [0x8050] [] |> withA 0 0x2001 0)) = some (.addressingFault 0x2001 2 .read) := by decide

/-- Vector F3: the second lane is refused. -/
theorem test_fault_lane :
    faultOf (step (stateOf [0x0188, 0x0000] [] |> withD 0 0x1234 0 |> withA 0 0x203F 0)) =
      some (.addressingFault 0x2041 1 .write) := by decide

/-- Vectors F4, F5. -/
theorem test_fault_fetch :
    faultOf (step { stateOf [] [] with pc := 0x1001 }) = some (.addressingFault 0x1001 2 .fetch) ∧
    faultOf (step { stateOf [] [] with pc := 0x3000 }) = some (.addressingFault 0x3000 2 .fetch) := by decide

/-- 60 R210: the cause codes. -/
theorem test_fault_codes :
    (Fault.unimplementedOpcode 0).code = 1 ∧ (Fault.illegalOperandRequest 7 5 none).code = 2 ∧
    (Fault.addressingFault 0 1 .read).code = 3 := by decide

/-- A row's words placed at the reset state are what the next step runs. -/
theorem test_withFetchWord :
    look (step (State.reset.withFetchWord 32 0x00FF0A3C)) (fun t => (t.sr, t.ft, t.pc)) = some (0x001F, 31, 4) ∧
    look (step (State.reset.withFetchWord 16 0x8001)) (fun t => (t.d.get 0, t.pc)) = some (⟨0, 15⟩, 2) := by decide

theorem test_reset_memory_wf : State.reset.mem.wf := by decide

/-- The reset state is what INIT leaves of the model's record (log 1 to 7). -/
theorem test_reset_is_init :
    State.reset = init ⟨.replicate 8 unvouched, .replicate 7 unvouched, unvouched, unvouched, 0, 0, 31⟩
      defaultCycles ⟨[⟨0, 4294967296⟩], []⟩ := by decide

/-- Writing back what an unlisted address reads as removes the entry. -/
theorem test_memory_canonical :
    ((memOf [(0x2000, 5, 0), (0x2004, 6, 1)]).setCell 0x2000 unlistedCell).cells = [(0x2004, ⟨6, 1⟩)] := by decide

/-! ### Witnesses: for each obligation with hypotheses, a state and operands that meet them -/

/-- A register-to-register OR at `0x1000`. -/
def sReg : State := stateOf [0x8001] [] |> withD 0 0xF0 0 |> withD 1 0x0F 0

/-- A program at `0x1000` that stores a word at `0x2000`. -/
def sMem : State := stateOf [0x8150] [] |> withD 0 0xF0 2 |> withA 0 0x2000 0

theorem witness_DecodeOfEncodeIsIdentity :
    (Instr.orBToReg (.imm 0xFFFF) 7).wf = true ∧ (Instr.orLToEa 7 (.index 7 ⟨true, 7, true, 7, 0xFF⟩)).wf = true ∧
    (Instr.movepLToMem 7 0x8000 7).wf = true := by decide

theorem witness_EncodeOfDecodeIsIdentity :
    decodeWords [0x803C, 0x1234, 0x4E71] = .ok (.orBToReg (.imm 0x1234) 0, [0x4E71]) := by decide

theorem witness_DecodeBytesGivesInstructionAndLength :
    (Instr.orBToReg (.dReg 7) 7).wf = true ∧ (Instr.oriCcr 0).wf = true ∧ (Instr.orLToReg (.imm 0xFFFFFFFF) 0).wf = true := by
  decide

theorem witness_OpcodeSelectionsDisjointAndCounted :
    (⟨.orToReg .byte, 0x8000, 0xF1C0⟩ : Row).selects 0x8E3C = true ∧ (⟨.oriCcr, 0x003C, 0xFFFF⟩ : Row).selects 0x003C = true ∧
    (Form.orToReg .long).eaLegal 7 4 = true ∧ (Form.orToEa .long).eaLegal 7 1 = true ∧
    (∃ sz, Form.orToEa .long = .orToReg sz ∨ Form.orToEa .long = .orToEa sz) ∧
    ∃ l, Form.movepToMem true = .movepToReg l ∨ Form.movepToMem true = .movepToMem l :=
  ⟨by decide, by decide, by decide, by decide, ⟨.long, .inr rfl⟩, ⟨true, .inr rfl⟩⟩

theorem witness_StepExecutesDecodedInstruction :
    (stateOf [0x84BC, 0x8000, 0x0000] []).halted = false ∧
    decodeWords [0x84BC, 0x8000, 0x0000] = .ok (.orLToReg (.imm 0x80000000) 2, []) ∧
    wordsAt (stateOf [0x84BC, 0x8000, 0x0000] []).mem (stateOf [0x84BC, 0x8000, 0x0000] []).pc [0x84BC, 0x8000, 0x0000] := by
  simp only [wordsAt]; decide

theorem witness_UnpopulatedWordFaults :
    (stateOf [0x4E71] []).halted = false ∧ (stateOf [0x4E71] []).mem.accepts (stateOf [0x4E71] []).pc 2 = true ∧
    dispatchTable ((stateOf [0x4E71] []).mem.loadBytes (stateOf [0x4E71] []).pc 2).val = none := by decide

/-- The first clause. -/
theorem witness_RefusedFetchFaults_opcode :
    { stateOf [] [] with pc := 0x1001 }.halted = false ∧
    { stateOf [] [] with pc := 0x1001 }.mem.accepts { stateOf [] [] with pc := 0x1001 }.pc 2 = false := by decide

/-- The second clause: the code ends one word before the region does, the second extension word is refused. -/
theorem witness_RefusedFetchFaults_extension :
    let s : State := { stateOf [] (codeAt 0x101C [0x84BC, 0x8000]) with pc := 0x101C }
    s.halted = false ∧ wordsAt s.mem s.pc (0x84BC :: [0x8000]) ∧ dispatchTable 0x84BC = some (.orToReg .long) ∧
    [(0x8000 : Word)].length < (Form.orToReg .long).extWords 0x84BC ∧
    s.mem.accepts (s.pc + BitVec.ofNat 32 (2 * (1 + [(0x8000 : Word)].length))) 2 = false := by
  simp only [wordsAt]; decide

theorem witness_StepAdvancesPcPastItsWords :
    (∃ t, step sReg = .next t) ∧ (∃ t, step (stateOf [0x84BC, 0x8000, 0x0000] []) = .next t) ∧
    ∃ t, step (stateOf [0x003C, 0x0004] []) = .next t :=
  ⟨exists_next (by decide), exists_next (by decide), exists_next (by decide)⟩

theorem witness_HaltedBlockRefusesStep : sReg.halt.halted = true := by decide

theorem witness_RunningBlockNeverRefuses : sReg.halted = false := by decide

theorem witness_StepKeepsInvariant : sMem.Inv ∧ ∃ t, step sMem = .next t := ⟨by decide, exists_next (by decide)⟩

theorem witness_StepKeepsStatusHighByteAndMap : ∃ t, step (withSr 0xA71F 31 sMem) = .next t := exists_next (by decide)

/-- User mode, and supervisor mode. -/
theorem witness_StackPointerBanking :
    sReg.sr.getLsbD 13 = false ∧ (∃ t, step sReg = .next t) ∧ (withSr 0x2700 0 sReg).sr.getLsbD 13 = true ∧
    ∃ t, step (withSr 0x2700 0 sReg) = .next t :=
  ⟨by decide, exists_next (by decide), by decide, exists_next (by decide)⟩

theorem witness_StepIssuesPortOperationsInOrder :
    decodeWords [0x8150] = .ok (.orWToEa 0 (.ind 0), []) ∧ wordsAt sMem.mem sMem.pc [0x8150] ∧ ∃ t, step sMem = .next t := by
  refine ⟨by decide, ?_, exists_next (by decide)⟩
  simp only [wordsAt]; decide

/-- Two mapped cells, clean, and everything else clean. -/
def sClean : State :=
  { State.reset with
    d := .replicate 8 ⟨5, 0⟩, a := .replicate 7 ⟨0, 0⟩, usp := ⟨0, 0⟩, ssp := ⟨0, 0⟩, ft := 0
    mem := ⟨[⟨0, 2⟩], [(0, ⟨0x80, 0⟩), (1, ⟨0x01, 0⟩)]⟩ }

theorem witness_StepTaintsNothingFromClean : sClean.mem.wf ∧ AllClean sClean ∧ ∃ t, step sClean = .next t := by
  refine ⟨by decide, ⟨by decide, by decide, rfl, rfl, rfl, fun a h => ?_⟩, exists_next (by decide)⟩
  have h2 : a.toNat < 2 := by simpa [sClean, Memory.mapped] using h
  have h3 : ∀ k : Fin 2, (lookupCell sClean.mem.cells k.val).t = 0 := by decide
  exact h3 ⟨a.toNat, h2⟩

/-- Two states that differ in a tainted byte of `D0`. -/
theorem witness_TaintCoversDataFlow :
    (Instr.orWToEa 0 (.ind 0)).wf = true ∧ sMem.mem.wf ∧ (withD 0 0x12F0 2 sMem).mem.wf ∧
    Agree sMem (withD 0 0x12F0 2 sMem) ∧
    dataAddress (.orWToEa 0 (.ind 0)) sMem = dataAddress (.orWToEa 0 (.ind 0)) (withD 0 0x12F0 2 sMem) := by
  refine ⟨by decide, by decide, by decide, ⟨?_, fun r => AgreeTV.refl _, AgreeTV.refl _, AgreeTV.refl _, rfl, rfl, rfl,
    fun _ _ _ => rfl, rfl, rfl, fun a => AgreeTV.refl _, rfl, rfl⟩, rfl⟩
  unfold AgreeTV; decide

theorem witness_NarrowAccessKeepsUpperBytes : (1 : RegNo) ≠ 0 := by decide

theorem witness_FlagUnitLaws :
    AluKind.move ∈ [AluKind.or, .and, .eor, .move] ∧ AluKind.cmp ∈ [AluKind.or, .and, .eor, .add, .sub, .cmp] := by decide

theorem witness_LogicalKindsFlags : AluKind.eor ∈ [AluKind.or, .and, .eor] := by decide

/-- A byte at an odd address, a word at the top of a region, a long that wraps over the top of the address space. -/
theorem witness_MemoryWriteReadsBack :
    sMem.mem.wf ∧ sMem.mem.accepts 0x2001 1 = true ∧ sMem.mem.accepts 0x203E 2 = true ∧ State.reset.mem.wf ∧
    State.reset.mem.accepts 0xFFFFFFFE 4 = true := by decide

/-- Acceptance and refusal at the edges: the last word and the last long of a region, a word half past it, an odd word, a
long that wraps over the top of a fully mapped space, and a long whose wrap meets an unmapped cell. -/
theorem witness_PortRefusals_acceptance :
    (2 = 2 ∨ 2 = 4) ∧ (4 = 2 ∨ 4 = 4) ∧ sMem.mem.accepts 0x203E 2 = true ∧ sMem.mem.accepts 0x203C 4 = true ∧
    sMem.mem.accepts 0x203E 4 = false ∧ sMem.mem.accepts 0x2040 2 = false ∧ sMem.mem.accepts 0x203D 2 = false ∧
    State.reset.mem.accepts 0xFFFFFFFE 4 = true ∧
    (⟨[⟨0x1000, 0xFFFFF000⟩], []⟩ : Memory).accepts 0xFFFFFFFE 4 = false := by decide

theorem witness_PortRefusals :
    (0x2001 : Addr).getLsbD 0 = true ∧ 3 < Size.long.bytes ∧
    sMem.mem.mapped ((0x203D : Addr) + BitVec.ofNat 32 3).toNat = false ∧ 0 < Size.byte.bytes ∧
    sMem.mem.mapped ((0x2040 : Addr) + BitVec.ofNat 32 0).toNat = false := by decide

/-- The last clause: a memory operand of mode 7 that is written, and of mode 2. -/
theorem witness_PlainModesResolution : isPcRelative 7 1 = false ∧ isPcRelative 2 2 = false := by decide

theorem witness_ExtraCyclesDefaultTable : State.reset.costs = defaultCycles := rfl

/-- The second clause, and the third for each of its four kinds. -/
theorem witness_IllegalOperandRequests :
    (⟨1, 3, .aReg 3, 0⟩ : Operand 1).kind = .aReg 3 ∧ resolve (.aReg 3) .word sReg = .ok (⟨1, 3, .aReg 3, 0⟩, sReg) ∧
    resolve (.imm 5) .byte sReg = .ok (⟨7, 4, .imm ⟨5, 0⟩, 4⟩, sReg) ∧
    resolve (.pcDisp 2) .word sReg = .ok (⟨7, 2, .mem 0x1000, 8⟩, sReg) ∧
    resolve (.pcIndex ⟨false, 2, true, 0, 2⟩) .long sReg = .ok (⟨7, 3, .mem 0x1000, 14⟩, sReg) :=
  ⟨rfl, rfl, rfl, rfl, rfl⟩

theorem witness_ResolvedOperandRoundTrip :
    sMem.mem.wf ∧ (Ea.ind 0).isDest = true ∧ operandAccepted (.ind 0) .long sMem = true ∧
    operandAccepted (.dReg 7) .byte sMem = true := by decide

theorem witness_OrByteToRegister :
    (Ea.disp 0 0x3F).isSource = true ∧ operandAccepted (.disp 0 0x3F) .byte sMem = true ∧ (Ea.imm 1).isSource = true ∧
    operandAccepted (.imm 1) .byte sMem = true := by decide

theorem witness_OrWordToRegister :
    (Ea.disp 0 0x3E).isSource = true ∧ operandAccepted (.disp 0 0x3E) .word sMem = true ∧ (Ea.dReg 0).isSource = true ∧
    operandAccepted (.dReg 0) .word sMem = true := by decide

theorem witness_OrLongToRegister :
    (Ea.postInc 0).isSource = true ∧ operandAccepted (.postInc 0) .long sMem = true := by decide

theorem witness_OrByteToMemory :
    (Ea.absL 0x203F).isDest = true ∧ sMem.mem.wf ∧ operandAccepted (.absL 0x203F) .byte sMem = true := by decide

theorem witness_OrWordToMemory :
    (Ea.ind 0).isDest = true ∧ sMem.mem.wf ∧ operandAccepted (.ind 0) .word sMem = true := by decide

theorem witness_OrLongToMemory :
    (Ea.postInc 0).isDest = true ∧ sMem.mem.wf ∧ operandAccepted (.postInc 0) .long sMem = true := by decide

/-- One byte past a region, an odd word, a long half past a region. -/
theorem witness_OrRefusedOperandFaults :
    eaAddress (.absL 0x2040) .byte sMem = some 0x2040 ∧ sMem.mem.accepts 0x2040 1 = false ∧
    eaAddress (.absL 0x2001) .word sMem = some 0x2001 ∧ sMem.mem.accepts 0x2001 2 = false ∧
    eaAddress (.absL 0x203E) .long sMem = some 0x203E ∧ sMem.mem.accepts 0x203E 4 = false := by decide

theorem witness_OrToRegisterFrame :
    (∃ t, exec (.orBToReg (.dReg 1) 0) sReg = .next t) ∧ (∃ t, exec (.orWToReg (.postInc 0) 0) sMem = .next t) ∧
    ∃ t, exec (.orLToReg (.imm 7) 0) sReg = .next t :=
  ⟨exists_next (by decide), exists_next (by decide), exists_next (by decide)⟩

theorem witness_OrToMemoryFrame :
    (Ea.ind 0).isDest = true ∧ (∃ t, exec (.orBToEa 0 (.ind 0)) sMem = .next t) ∧
    (∃ t, exec (.orWToEa 0 (.ind 0)) sMem = .next t) ∧ (∃ t, exec (.orLToEa 0 (.ind 0)) sMem = .next t) ∧
    eaAddress (.ind 0) .long sMem = some 0x2000 ∧ ∀ i, i < Size.long.bytes → (0x2004 : Addr) ≠ 0x2000 + BitVec.ofNat 32 i :=
  ⟨rfl, exists_next (by decide), exists_next (by decide), exists_next (by decide), rfl, by decide⟩

/-- The last lane at the last byte of the region, the base odd. -/
theorem witness_MovepWordToRegister :
    sMem.mem.accepts ((sMem.getA 0).val + (0x3D : BitVec 16).signExtend 32) 1 = true ∧
    sMem.mem.accepts ((sMem.getA 0).val + (0x3D : BitVec 16).signExtend 32 + 2) 1 = true := by decide

theorem witness_MovepLongToRegister :
    sMem.mem.accepts ((sMem.getA 0).val + (0x39 : BitVec 16).signExtend 32) 1 = true ∧
    sMem.mem.accepts ((sMem.getA 0).val + (0x39 : BitVec 16).signExtend 32 + 2) 1 = true ∧
    sMem.mem.accepts ((sMem.getA 0).val + (0x39 : BitVec 16).signExtend 32 + 4) 1 = true ∧
    sMem.mem.accepts ((sMem.getA 0).val + (0x39 : BitVec 16).signExtend 32 + 6) 1 = true := by decide

theorem witness_MovepWordToMemory :
    sMem.mem.wf ∧ sMem.mem.accepts ((sMem.getA 0).val + (0 : BitVec 16).signExtend 32) 1 = true ∧
    sMem.mem.accepts ((sMem.getA 0).val + (0 : BitVec 16).signExtend 32 + 2) 1 = true := by decide

theorem witness_MovepLongToMemory :
    sMem.mem.wf ∧ sMem.mem.accepts ((sMem.getA 0).val + (0 : BitVec 16).signExtend 32) 1 = true ∧
    sMem.mem.accepts ((sMem.getA 0).val + (0 : BitVec 16).signExtend 32 + 2) 1 = true ∧
    sMem.mem.accepts ((sMem.getA 0).val + (0 : BitVec 16).signExtend 32 + 4) 1 = true ∧
    sMem.mem.accepts ((sMem.getA 0).val + (0 : BitVec 16).signExtend 32 + 6) 1 = true := by decide

/-- Lane 0, lane 1 (vector F3's address) and lane 3 refused. -/
theorem witness_MovepRefusedLaneFaults :
    (lanesAccepted sMem.mem ((sMem.getA 0).val + (0x40 : BitVec 16).signExtend 32) 0 = true ∧
      sMem.mem.accepts ((sMem.getA 0).val + (0x40 : BitVec 16).signExtend 32 + BitVec.ofNat 32 (2 * 0)) 1 = false) ∧
    (lanesAccepted sMem.mem ((sMem.getA 0).val + (0x3F : BitVec 16).signExtend 32) 1 = true ∧
      sMem.mem.accepts ((sMem.getA 0).val + (0x3F : BitVec 16).signExtend 32 + BitVec.ofNat 32 (2 * 1)) 1 = false) ∧
    (lanesAccepted sMem.mem ((sMem.getA 0).val + (0x3A : BitVec 16).signExtend 32) 3 = true ∧
      sMem.mem.accepts ((sMem.getA 0).val + (0x3A : BitVec 16).signExtend 32 + BitVec.ofNat 32 (2 * 3)) 1 = false) := by
  decide

theorem witness_MovepToRegisterFrame :
    (∃ t, exec (.movepWToReg 0 0 1) sMem = .next t) ∧ ∃ t, exec (.movepLToReg 0 0 1) sMem = .next t :=
  ⟨exists_next (by decide), exists_next (by decide)⟩

theorem witness_MovepToMemoryFrame :
    (∃ t, exec (.movepWToMem 0 0 0) sMem = .next t) ∧ (∃ t, exec (.movepLToMem 0 0 0) sMem = .next t) ∧
    ∀ i, i < 4 → (0x2001 : Addr) ≠ (sMem.getA 0).val + (0 : BitVec 16).signExtend 32 + BitVec.ofNat 32 (2 * i) :=
  ⟨exists_next (by decide), exists_next (by decide), by decide⟩

theorem witness_MovepRoundTrip :
    sMem.mem.wf ∧ (∃ t, exec (.movepWToMem 0 0x3D 0) sMem = .next t) ∧ ∃ t, exec (.movepLToMem 0 0x39 0) sMem = .next t :=
  ⟨by decide, exists_next (by decide), exists_next (by decide)⟩

end Sys2Proof.Tests
end

section
/-! SUPPORT. What every step keeps, one rule per operation on the state: the high byte of `SR` and its reserved bits
(10_state.md R26, R28), the latch, the map, the cycle tables, the canonical memory, and the inactive stack pointer (R23). -/

namespace Sys2Proof.Machine

/-- `t` keeps what no completed step may change in `s`. -/
structure Preserves (s t : State) : Prop where
  srHigh : t.sr.extractLsb' 8 8 = s.sr.extractLsb' 8 8
  reserved : s.sr.extractLsb' 5 3 = 0 → t.sr.extractLsb' 5 3 = 0
  halted : t.halted = s.halted
  map : t.mem.map = s.mem.map
  costs : t.costs = s.costs
  memWf : s.mem.wf → t.mem.wf
  usp : s.supervisor = true → t.usp = s.usp
  ssp : s.supervisor = false → t.ssp = s.ssp

/-- The mode is bit 5 of the high byte. -/
theorem supervisor_of_srHigh {s t : State} (h : t.sr.extractLsb' 8 8 = s.sr.extractLsb' 8 8) :
    t.supervisor = s.supervisor := by
  simpa [State.supervisor] using congrArg (fun v => v.getLsbD 5) h

@[simp] theorem flagByteWrite_supervisor (s : State) (op : CcrOp) (imm : BitVec 5) :
    (s.flagByteWrite op imm).supervisor = s.supervisor := supervisor_of_srHigh (flagByteWrite_sr s op imm).2.2

@[simp] theorem flagByteWrite_getA (s : State) (op : CcrOp) (imm : BitVec 5) (r : RegNo) :
    (s.flagByteWrite op imm).getA r = s.getA r :=
  getA_congr (s := s) (t := s.flagByteWrite op imm) rfl rfl rfl (flagByteWrite_supervisor s op imm) r

section
variable {n : Nat} {s t u : State}

theorem Preserves.trans (h : Preserves s t) (h' : Preserves t u) : Preserves s u where
  srHigh := h'.srHigh.trans h.srHigh
  reserved := h'.reserved ∘ h.reserved
  halted := h'.halted.trans h.halted
  map := h'.map.trans h.map
  costs := h'.costs.trans h.costs
  memWf := h'.memWf ∘ h.memWf
  usp hs := (h'.usp ((supervisor_of_srHigh h.srHigh).trans hs)).trans (h.usp hs)
  ssp hs := (h'.ssp ((supervisor_of_srHigh h.srHigh).trans hs)).trans (h.ssp hs)

theorem preserves_refl (s : State) : Preserves s s :=
  ⟨rfl, id, rfl, rfl, rfl, id, fun _ => rfl, fun _ => rfl⟩

theorem preserves_afterFetch (s : State) (k : Nat) : Preserves s (afterFetch s k) :=
  ⟨rfl, id, rfl, rfl, rfl, id, fun _ => rfl, fun _ => rfl⟩

theorem preserves_logOp (s : State) (k : AccessKind) (a : Addr) (w : Nat) : Preserves s (s.logOp k a w) :=
  ⟨rfl, id, rfl, rfl, rfl, id, fun _ => rfl, fun _ => rfl⟩

theorem preserves_logLanes (s : State) (k : AccessKind) (a : Addr) (w : Nat) : Preserves s (logLanes s k a w) :=
  ⟨rfl, id, rfl, rfl, rfl, id, fun _ => rfl, fun _ => rfl⟩

theorem preserves_setCycles (s : State) (c : Nat) : Preserves s (s.setCycles c) :=
  ⟨rfl, id, rfl, rfl, rfl, id, fun _ => rfl, fun _ => rfl⟩

theorem preserves_writeD (s : State) (r : RegNo) (v : TV n) : Preserves s (s.writeD r v) :=
  ⟨rfl, id, rfl, rfl, rfl, id, fun _ => rfl, fun _ => rfl⟩

/-- A write to an address register goes to the active stack pointer slot only (10 R23). -/
theorem preserves_setA (s : State) (r : RegNo) (v : TV 4) : Preserves s (s.setA r v) where
  srHigh := by simp
  reserved := by simp
  halted := by simp
  map := by simp
  costs := by simp
  memWf := by rw [setA_mem]; exact id
  usp := (setA_inactive s r v).1
  ssp := (setA_inactive s r v).2

theorem preserves_applyFlags (s : State) (f : FlagUpdate) : Preserves s (s.applyFlags f) := by
  obtain ⟨-, -, -, -, -, -, -, -, -, -, hi⟩ := applyFlags_spec s f
  obtain ⟨-, hreserved, hhigh⟩ := upper_of_extract hi
  exact ⟨hhigh, hreserved.trans, rfl, rfl, rfl, id, fun _ => rfl, fun _ => rfl⟩

/-- The flag-byte write path clears `SR[7:5]` whatever they were (42 R169). -/
theorem preserves_flagByteWrite (s : State) (op : CcrOp) (imm : BitVec 5) : Preserves s (s.flagByteWrite op imm) := by
  obtain ⟨-, hreserved, hhigh⟩ := flagByteWrite_sr s op imm
  exact ⟨hhigh, fun _ => hreserved, rfl, rfl, rfl, id, fun _ => rfl, fun _ => rfl⟩

theorem preserves_setMem (s : State) {m : Memory} (hmap : m.map = s.mem.map) (hwf : s.mem.wf → m.wf) :
    Preserves s { s with mem := m } :=
  ⟨rfl, id, rfl, hmap, rfl, hwf, fun _ => rfl, fun _ => rfl⟩

theorem preserves_eaUpdate (ea : Ea) (sz : Size) (s : State) : Preserves s (eaUpdate ea sz s) := by
  rcases eaUpdate_cases ea sz s with ⟨-, e⟩ | ⟨r, v, -, e⟩ <;> rw [e]
  · exact preserves_refl s
  · exact preserves_setA s r _

theorem preserves_afterRead (ea : Ea) (sz : Size) (s : State) : Preserves s (afterRead ea sz s) := by
  unfold afterRead
  split
  · exact (preserves_eaUpdate ea sz s).trans (preserves_logOp _ _ _ _)
  · exact preserves_eaUpdate ea sz s

theorem preserves_orToRegResult (sz : Size) (src : Ea) (dn : RegNo) (s : State) :
    Preserves s (orToRegResult sz src dn s) :=
  (preserves_afterRead src sz s).trans <| (preserves_writeD _ _ _).trans <| (preserves_applyFlags _ _).trans <|
    preserves_setCycles _ _

theorem preserves_orToEaResult {sz : Size} {dn : RegNo} {dst : Ea} {a : Addr} (h : s.mem.accepts a sz.bytes = true) :
    Preserves s (orToEaResult sz dn dst a s) := by
  have hstore := preserves_setMem ((afterRead dst sz s).logOp .write a sz.bytes)
    (m := s.mem.storeBytes a (alu .or (s.readD dn sz.bytes) (s.mem.loadBytes a sz.bytes)) sz.bytes) (by simp)
    (by rw [logOp_mem, afterRead_mem]; exact fun hw => storeBytes_wf hw _ (accepts_allMapped h))
  exact (preserves_afterRead dst sz s).trans <| (preserves_logOp _ _ _ _).trans <| hstore.trans <|
    (preserves_applyFlags _ _).trans <| preserves_setCycles _ _

theorem preserves_storeLanes {a : Addr} {k : Nat} (v : TV n) (h : lanesAccepted s.mem a k = true) :
    Preserves s { logLanes s .write a k with mem := storeLanes s.mem a v k } :=
  (preserves_logLanes s .write a k).trans <|
    preserves_setMem _ (storeLanes_map s.mem a v k) fun hw => storeLanes_wf hw v h

/-- Every instruction keeps it, by the shape of its result. -/
theorem exec_preserves {i : Instr} (hi : i.wf = true) (h : exec i s = .next t) : Preserves s t := by
  rcases exec_next hi h with ⟨sz, src, dn, -, -, rfl⟩ | ⟨sz, dn, dst, a, -, -, -, hacc, rfl⟩ |
    ⟨l, d16, ay, dx, -, -, rfl⟩ | ⟨l, dx, d16, ay, -, hacc, rfl⟩ | ⟨op, imm16, -, rfl⟩
  · exact preserves_orToRegResult sz src dn s
  · exact preserves_orToEaResult hacc
  · exact (preserves_logLanes _ _ _ _).trans <| (preserves_writeD _ _ _).trans <| preserves_setCycles _ _
  · exact (preserves_storeLanes _ hacc).trans <| preserves_setCycles _ _
  · exact (preserves_flagByteWrite s op _).trans <| preserves_setCycles _ _

theorem step_preserves (h : step s = .next t) : Preserves s t := by
  obtain ⟨-, ws, i, -, -, hi, hx⟩ := step_next h
  exact (preserves_afterFetch s ws.length).trans (exec_preserves hi hx)

end

/-- Settles O13: each operation on the state keeps the canonical form and `SR[7:5]`, so every instruction does. -/
theorem stepKeepsInvariant : Obligations.StepKeepsInvariant := fun _ _ ⟨hwf, hsr⟩ h =>
  ⟨(step_preserves h).memWf hwf, (step_preserves h).reserved hsr⟩

/-- Settles O15: only a block that runs completes a step, and no operation touches the latch. -/
theorem stepKeepsStatusHighByteAndMap : Obligations.StepKeepsStatusHighByteAndMap := fun _ _ h =>
  have hp := step_preserves h
  ⟨hp.srHigh, hp.halted.trans (step_next h).1, hp.map, hp.costs⟩

/-- Settles O16: the slot is chosen by `SR[13]`, and only the chosen one is written. -/
theorem stackPointerBanking : Obligations.StackPointerBanking := by
  refine ⟨fun s h => ?_, fun s h => ?_, fun s t h => ⟨(step_preserves h).usp, (step_preserves h).ssp⟩⟩
  · rw [getA_seven, State.supervisor, h, if_pos rfl]
  · rw [getA_seven, State.supervisor, h, if_neg (by decide)]

/-- Settles O14: the map is one region, no cell is listed, and `SR` is 0. -/
theorem resetSatisfiesCanonicalForm : Obligations.ResetSatisfiesCanonicalForm :=
  ⟨⟨⟨List.pairwise_singleton _ _, by decide⟩, .nil, by decide⟩, rfl⟩

end Sys2Proof.Machine
end

section
/-! SUPPORT. What a stored cell can hold, and that nothing tainted appears where nothing was: one rule per operation on the
state (10_state.md R36 (b)). -/

namespace Sys2Proof.Machine

section
variable {n : Nat} {s t : State}

/-- A cell after a store is a lane of the value or the old cell (20 R54, R68): what relates the lanes and the old cells of
two memories relates their cells after a store at the same address. -/
theorem cell_storeBytes_rel {P : TV 1 → TV 1 → Prop} {m m' : Memory} (hm : m.wf) (hm' : m'.wf) {a : Addr} {k : Nat}
    (ha : m.allMapped a k = true) (ha' : m'.allMapped a k = true) (hk : k ≤ 2 ^ 32) {v v' : TV n}
    (hlane : ∀ j < k, P (v.lane j) (v'.lane j)) {b : Addr} (hcell : P (m.cell b) (m'.cell b)) :
    P ((m.storeBytes a v k).cell b) ((m'.storeBytes a v' k).cell b) := by
  by_cases h : ∃ i < k, b = a + BitVec.ofNat 32 i
  · obtain ⟨i, hi, rfl⟩ := h
    rw [cell_storeBytes_inside hm v ha hk hi, cell_storeBytes_inside hm' v' ha' hk hi]
    exact hlane _ (by omega)
  · push Not at h
    rwa [cell_storeBytes_outside m a b v k h, cell_storeBytes_outside m' a b v' k h]

/-- The same of the lanes of a byte transfer (44 R190). -/
theorem cell_storeLanes_rel {P : TV 1 → TV 1 → Prop} {m m' : Memory} (hm : m.wf) (hm' : m'.wf) {a : Addr} {k : Nat}
    (ha : lanesAccepted m a k = true) (ha' : lanesAccepted m' a k = true) (hk : k ≤ 2 ^ 31) {v v' : TV n}
    (hlane : ∀ j < k, P (v.lane j) (v'.lane j)) {b : Addr} (hcell : P (m.cell b) (m'.cell b)) :
    P ((storeLanes m a v k).cell b) ((storeLanes m' a v' k).cell b) := by
  by_cases h : ∃ i < k, b = a + BitVec.ofNat 32 (2 * i)
  · obtain ⟨i, hi, rfl⟩ := h
    rw [cell_storeLanes_inside hm v ha hk hi, cell_storeLanes_inside hm' v' ha' hk hi]
    exact hlane _ (by omega)
  · push Not at h
    rwa [cell_storeLanes_outside m a b v k h, cell_storeLanes_outside m' a b v' k h]

theorem cell_storeBytes_clean {m : Memory} (hm : m.wf) {a : Addr} {k : Nat} (ha : m.allMapped a k = true)
    (hk : k ≤ 2 ^ 32) {v : TV n} (hv : v.t = 0) {b : Addr} (hb : (m.cell b).t = 0) :
    ((m.storeBytes a v k).cell b).t = 0 :=
  cell_storeBytes_rel (P := fun c _ => c.t = 0) (v' := v) hm hm ha ha hk (fun j _ => TV.lane_t_eq_zero hv j) hb

theorem cell_storeLanes_clean {m : Memory} (hm : m.wf) {a : Addr} {k : Nat} (ha : lanesAccepted m a k = true)
    (hk : k ≤ 2 ^ 31) {v : TV n} (hv : v.t = 0) {b : Addr} (hb : (m.cell b).t = 0) :
    ((storeLanes m a v k).cell b).t = 0 :=
  cell_storeLanes_rel (P := fun c _ => c.t = 0) (v' := v) hm hm ha ha hk (fun j _ => TV.lane_t_eq_zero hv j) hb

theorem bytes_le_space (sz : Size) : sz.bytes ≤ 2 ^ 32 := (bytes_le_four sz).trans (by decide)

theorem movepBytes_le_space (l : Bool) : movepBytes l ≤ 2 ^ 31 := by cases l <;> decide

/-- Every lane of an accepted byte transfer lies in a mapped cell (44 R190, 20 R68). -/
theorem mapped_of_lanesAccepted {m : Memory} {a : Addr} {k i : Nat} (h : lanesAccepted m a k = true) (hi : i < k) :
    m.mapped (a + BitVec.ofNat 32 (2 * i)).toNat = true := by
  induction k generalizing a i with
  | zero => omega
  | succ k ih =>
    simp only [lanesAccepted, Bool.and_eq_true] at h
    cases i with
    | zero => exact mapped_of_allMapped (accepts_allMapped h.1) Nat.one_pos
    | succ i => rw [offset2_succ]; exact ih h.2 (by omega)

theorem AllClean.cell (hc : AllClean s) {b : Addr} (hb : s.mem.mapped b.toNat = true) : (s.mem.cell b).t = 0 := by
  obtain ⟨-, -, -, -, -, hcell⟩ := hc
  exact hcell b hb

theorem laneValue_clean (hc : AllClean s) {a : Addr} {k : Nat} (h : lanesAccepted s.mem a k = true) :
    (laneValue s.mem a k).t = 0 := by
  apply TV.t_eq_zero_of_lanes
  intro j hj
  rw [lane_laneValue _ _ hj]
  exact hc.cell (mapped_of_lanesAccepted h (by omega))

theorem readD_clean (hc : AllClean s) (r : RegNo) : (s.readD r n).t = 0 := TV.low_t_eq_zero (hc.1 r)

/-- A combination of untainted operands is untainted (42 R159). -/
theorem alu_or_clean {x y : TV n} (hx : x.tainted = false) (hy : y.tainted = false) : (alu .or x y).t = 0 := by
  show TV.smear (x.tainted || y.tainted) n = 0
  rw [hx, hy]
  exact TV.smear_false

/-! The operation record, `pc` and the cycle count carry no taint. -/

theorem allClean_afterFetch (k : Nat) : AllClean (afterFetch s k) ↔ AllClean s := Iff.rfl

theorem allClean_logOp (k : AccessKind) (a : Addr) (w : Nat) : AllClean (s.logOp k a w) ↔ AllClean s := Iff.rfl

theorem allClean_logLanes (k : AccessKind) (a : Addr) (w : Nat) : AllClean (logLanes s k a w) ↔ AllClean s := Iff.rfl

theorem allClean_setCycles (c : Nat) : AllClean (s.setCycles c) ↔ AllClean s := Iff.rfl

theorem AllClean.writeD (hc : AllClean s) (r : RegNo) {v : TV n} (hv : v.t = 0) : AllClean (s.writeD r v) := by
  obtain ⟨hd, hrest⟩ := hc
  refine ⟨fun q => ?_, hrest⟩
  rw [get_writeD]
  split
  · exact TV.setLow_t_eq_zero (hd r) hv
  · exact hd q

/-- A logical kind on untainted operands leaves every flag untainted (42 R161). -/
theorem AllClean.applyLogicalFlags (hc : AllClean s) (res : TV n) :
    AllClean (s.applyFlags (logicalFlags false res)) := by
  obtain ⟨hd, ha, hu, hs, hft, hcell⟩ := hc
  exact ⟨hd, fun r => by rw [applyFlags_getA]; exact ha r, hu, hs, ft0 (applyFlags_logical s false res) hft, hcell⟩

theorem CcrOp.taint_zero (op : CcrOp) (imm : BitVec 5) : op.taint 0 imm = 0 := by
  cases op <;> simp [CcrOp.taint, ccrImmTaint, CcrOp.taintUnder]

theorem AllClean.flagByteWrite (hc : AllClean s) (op : CcrOp) (imm : BitVec 5) : AllClean (s.flagByteWrite op imm) := by
  obtain ⟨hd, ha, hu, hs, hft, hcell⟩ := hc
  refine ⟨hd, fun r => by rw [flagByteWrite_getA]; exact ha r, hu, hs, ?_, hcell⟩
  show op.taint s.ft imm = 0
  rw [hft, CcrOp.taint_zero]

theorem AllClean.eaUpdate (hc : AllClean s) (ea : Ea) (sz : Size) : AllClean (eaUpdate ea sz s) := by
  obtain ⟨ha, hu, hs⟩ := eaUpdate_clean hc ea sz
  obtain ⟨hd, -, -, -, hft, hcell⟩ := hc
  exact ⟨by simpa using hd, ha, hu, hs, by simpa using hft, by simpa using hcell⟩

theorem AllClean.afterRead (hc : AllClean s) (ea : Ea) (sz : Size) : AllClean (afterRead ea sz s) := by
  unfold Machine.afterRead
  split
  · exact (allClean_logOp _ _ _).2 (hc.eaUpdate ea sz)
  · exact hc.eaUpdate ea sz

theorem AllClean.setMem (hc : AllClean s) {m : Memory} (hmap : m.map = s.mem.map)
    (hcell : ∀ a : Addr, s.mem.mapped a.toNat = true → (m.cell a).t = 0) : AllClean { s with mem := m } := by
  obtain ⟨hd, ha, hu, hs, hft, -⟩ := hc
  exact ⟨hd, ha, hu, hs, hft, fun a h => hcell a ((mapped_congr hmap _).symm.trans h)⟩

theorem orToRegResult_clean (hc : AllClean s) {sz : Size} {src : Ea} (dn : RegNo) (hs : src.isSource = true)
    (h : operandAccepted src sz s = true) : AllClean (orToRegResult sz src dn s) := by
  have hx := TV.tainted_eq_false.2 (source_clean hc hs h)
  have hy := TV.tainted_eq_false.2 (readD_clean (n := sz.bytes) hc dn)
  have hw := (hc.afterRead src sz).writeD dn (alu_or_clean hx hy)
  simp only [orToRegResult, computeFlags, hx, hy]
  exact (allClean_setCycles _).2 (hw.applyLogicalFlags _)

theorem orToEaResult_clean (hm : s.mem.wf) (hc : AllClean s) {sz : Size} (dn : RegNo) (dst : Ea) {a : Addr}
    (h : s.mem.accepts a sz.bytes = true) : AllClean (orToEaResult sz dn dst a s) := by
  have hx := TV.tainted_eq_false.2 (readD_clean (n := sz.bytes) hc dn)
  have hy := TV.tainted_eq_false.2 (load_clean hc h)
  have hstore := ((allClean_logOp .write a sz.bytes).2 (hc.afterRead dst sz)).setMem
    (m := s.mem.storeBytes a (alu .or (s.readD dn sz.bytes) (s.mem.loadBytes a sz.bytes)) sz.bytes) (by simp)
    fun _ hb => cell_storeBytes_clean hm (accepts_allMapped h) (bytes_le_space sz) (alu_or_clean hx hy)
      (hc.cell (by simpa using hb))
  simp only [orToEaResult, computeFlags, hx, hy]
  exact (allClean_setCycles _).2 (hstore.applyLogicalFlags _)

theorem storeLanes_clean (hm : s.mem.wf) (hc : AllClean s) {a : Addr} {k : Nat} {v : TV n} (hv : v.t = 0)
    (h : lanesAccepted s.mem a k = true) (hk : k ≤ 2 ^ 31) :
    AllClean { logLanes s .write a k with mem := storeLanes s.mem a v k } :=
  ((allClean_logLanes .write a k).2 hc).setMem (storeLanes_map s.mem a v k) fun _ hb =>
    cell_storeLanes_clean hm h hk hv (hc.cell hb)

/-- No instruction taints anything from untainted inputs, by the shape of its result (10 R36 (b)). -/
theorem exec_clean {i : Instr} (hi : i.wf = true) (hm : s.mem.wf) (hc : AllClean s) (h : exec i s = .next t) :
    AllClean t := by
  rcases exec_next hi h with ⟨sz, src, dn, rfl, hacc, rfl⟩ | ⟨sz, dn, dst, a, -, -, -, hacc, rfl⟩ |
    ⟨l, d16, ay, dx, -, hacc, rfl⟩ | ⟨l, dx, d16, ay, -, hacc, rfl⟩ | ⟨op, imm16, -, rfl⟩
  · exact orToRegResult_clean hc dn (wf_mkOrToReg hi) hacc
  · exact orToEaResult_clean hm hc dn dst hacc
  · exact (allClean_setCycles _).2 (((allClean_logLanes _ _ _).2 hc).writeD dx (laneValue_clean hc hacc))
  · exact (allClean_setCycles _).2 (storeLanes_clean hm hc (readD_clean hc dx) hacc (movepBytes_le_space l))
  · exact (allClean_setCycles _).2 (hc.flagByteWrite op _)

end

/-- Settles O18: a step executes a well-formed instruction on a state as clean as the one it began from. -/
theorem stepTaintsNothingFromClean : Obligations.StepTaintsNothingFromClean := by
  intro s t hm hc h
  obtain ⟨-, ws, i, -, -, hi, hx⟩ := step_next h
  exact exec_clean (s := afterFetch s ws.length) hi hm ((allClean_afterFetch ws.length).2 hc) hx

end Sys2Proof.Machine
end

section
/-! SUPPORT. Agreement up to taint, one rule per operation on the state (10_state.md R36, 41_ea_resolver.md R140): states
that agree still agree after the same operation on values that agree. -/

namespace Sys2Proof.Machine

section
variable {n : Nat} {s s' : State}

theorem Agree.map (h : Agree s s') : s.mem.map = s'.mem.map := by
  obtain ⟨-, -, -, -, -, -, -, -, -, hmap, -, -, -⟩ := h
  exact hmap

theorem Agree.cell (h : Agree s s') (a : Addr) : AgreeTV (s.mem.cell a) (s'.mem.cell a) := by
  obtain ⟨-, -, -, -, -, -, -, -, -, -, hcell, -, -⟩ := h
  exact hcell a

theorem Agree.costs (h : Agree s s') : s.costs = s'.costs := by
  obtain ⟨-, -, -, -, -, -, -, -, -, -, -, -, hcosts⟩ := h
  exact hcosts

theorem Agree.setCycles (h : Agree s s') (c c' : Nat) : Agree (s.setCycles c) (s'.setCycles c') := by
  obtain ⟨hd, ha, hrest⟩ := h
  exact ⟨hd, ha, hrest⟩

theorem Agree.appendOps (h : Agree s s') (l : List PortOp) :
    Agree { s with ops := s.ops ++ l } { s' with ops := s'.ops ++ l } := by
  obtain ⟨hd, ha, hu, hs, hpc, hsr, hft, hfl, hh, hmap, hcell, hops, hcosts⟩ := h
  exact ⟨hd, ha, hu, hs, hpc, hsr, hft, hfl, hh, hmap, hcell, congrArg (· ++ l) hops, hcosts⟩

theorem Agree.logOp (h : Agree s s') (k : AccessKind) (a : Addr) (w : Nat) : Agree (s.logOp k a w) (s'.logOp k a w) :=
  h.appendOps _

theorem Agree.logLanes (h : Agree s s') (k : AccessKind) (a : Addr) (w : Nat) :
    Agree (logLanes s k a w) (logLanes s' k a w) :=
  h.appendOps _

theorem Agree.writeD (h : Agree s s') (r : RegNo) {v v' : TV n} (hv : AgreeTV v v') :
    Agree (s.writeD r v) (s'.writeD r v') := by
  obtain ⟨hd, hrest⟩ := h
  refine ⟨fun q => ?_, hrest⟩
  rw [get_writeD, get_writeD]
  split
  · exact (hd r).setLow hv
  · exact hd q

theorem Agree.setMem (h : Agree s s') {m m' : Memory} (hmap : m.map = m'.map)
    (hcell : ∀ a, AgreeTV (m.cell a) (m'.cell a)) : Agree { s with mem := m } { s' with mem := m' } := by
  obtain ⟨hd, ha, hu, hs, hpc, hsr, hft, hfl, hh, -, -, hops, hcosts⟩ := h
  exact ⟨hd, ha, hu, hs, hpc, hsr, hft, hfl, hh, hmap, hcell, hops, hcosts⟩

theorem Agree.eaUpdate (h : Agree s s') (ea : Ea) (sz : Size) : Agree (eaUpdate ea sz s) (eaUpdate ea sz s') := by
  obtain ⟨ha, hu, hs⟩ := upd_agree h ea sz
  obtain ⟨hd, -, -, -, hpc, hsr, hft, hfl, hh, hmap, hcell, hops, hcosts⟩ := h
  refine ⟨?_, ha, hu, hs, ?_⟩
  · simpa using hd
  · simpa using ⟨hpc, hsr, hft, hfl, hh, hmap, hcell, hops, hcosts⟩

theorem Agree.afterRead (h : Agree s s') {ea : Ea} {sz : Size} (he : eaAddress ea sz s = eaAddress ea sz s') :
    Agree (afterRead ea sz s) (afterRead ea sz s') := by
  unfold Machine.afterRead
  rw [← he]
  split
  · exact (h.eaUpdate ea sz).logOp _ _ _
  · exact h.eaUpdate ea sz

/-- A logical kind's flags, when the results are equal wherever no operand was tainted (42 R165). -/
theorem Agree.applyLogicalFlags (h : Agree s s') {tc : Bool} {r r' : TV n} (hr : tc = false → r.val = r'.val) :
    Agree (s.applyFlags (logicalFlags tc r)) (s'.applyFlags (logicalFlags tc r')) := by
  obtain ⟨hsr, hft, hfl⟩ := flags_agree h hr (applyFlags_logical s tc r) (applyFlags_logical s' tc r')
  obtain ⟨hd, ha, hu, hs, hpc, -, -, -, hh, hmap, hcell, hops, hcosts⟩ := h
  exact ⟨hd, fun q => by simpa using ha q, hu, hs, hpc, hsr, hft, hfl, hh, hmap, hcell, hops, hcosts⟩

/-- `SR[15:5]` is the reserved bits and the high byte. -/
theorem upper_ext {a b : BitVec 16} (h3 : a.extractLsb' 5 3 = b.extractLsb' 5 3)
    (h8 : a.extractLsb' 8 8 = b.extractLsb' 8 8) : a.extractLsb' 5 11 = b.extractLsb' 5 11 := by
  apply BitVec.eq_of_getLsbD_eq
  intro i hi
  by_cases h : i < 3
  · simpa [hi, h] using congrArg (fun v => v.getLsbD i) h3
  · have h' : i - 3 < 8 := by omega
    have e : 8 + (i - 3) = 5 + i := by omega
    simpa [hi, h', e] using congrArg (fun v => v.getLsbD (i - 3)) h8

/-- A flag that the flag-byte write leaves untainted was untainted, or the immediate forces it (42 R169). -/
theorem CcrOp.value_agree (op : CcrOp) {old old' ft imm : BitVec 5} {i : Nat} (hi : i < 5)
    (hold : ft.getLsbD i = false → old.getLsbD i = old'.getLsbD i) (hft : (op.taint ft imm).getLsbD i = false) :
    (op.value old imm).getLsbD i = (op.value old' imm).getLsbD i := by
  cases op with
  | or =>
    cases himm : imm.getLsbD i with
    | false =>
      have hft0 : ft.getLsbD i = false := by
        simpa only [CcrOp.taint, ccrImmTaint, CcrOp.taintUnder, BitVec.getLsbD_and, BitVec.getLsbD_not, hi, himm,
          decide_true, Bool.true_and, Bool.not_false, Bool.and_true] using hft
      simp [CcrOp.value, hold hft0]
    | true => simp [CcrOp.value, himm]
  | and =>
    cases himm : imm.getLsbD i with
    | false => simp [CcrOp.value, himm]
    | true =>
      have hft0 : ft.getLsbD i = false := by simpa [CcrOp.taint, ccrImmTaint, CcrOp.taintUnder, himm] using hft
      simp [CcrOp.value, hold hft0]
  | eor => simp [CcrOp.value, hold hft]

theorem Agree.flagByteWrite (h : Agree s s') (op : CcrOp) (imm : BitVec 5) :
    Agree (s.flagByteWrite op imm) (s'.flagByteWrite op imm) := by
  obtain ⟨hv, hlow, hhigh⟩ := flagByteWrite_sr s op imm
  obtain ⟨hv', hlow', hhigh'⟩ := flagByteWrite_sr s' op imm
  obtain ⟨hd, ha, hu, hs, hpc, hsr, hft, hfl, hh, hmap, hcell, hops, hcosts⟩ := h
  have hft' : (s.flagByteWrite op imm).ft = (s'.flagByteWrite op imm).ft := congrArg (op.taint · imm) hft
  refine ⟨hd, fun q => by simpa using ha q, hu, hs, hpc, ?_, hft', fun i hi hf => ?_, hh, hmap, hcell, hops, hcosts⟩
  · exact upper_ext (hlow.trans hlow'.symm) (hhigh.trans ((upper_of_extract hsr).2.2.trans hhigh'.symm))
  · rw [hv i hi, hv' i hi]
    refine op.value_agree hi (fun h0 => ?_) hf
    rw [flags_bit s hi, flags_bit s' hi]
    exact hfl i hi h0

theorem orToRegResult_agree (h : Agree s s') {sz : Size} {src : Ea} (dn : RegNo)
    (he : eaAddress src sz s = eaAddress src sz s') : Agree (orToRegResult sz src dn s) (orToRegResult sz src dn s') := by
  have hx := source_agree h he
  have hy := readD_agree h dn sz.bytes
  have hr := alu_agree sz hx hy
  simp only [orToRegResult, computeFlags, ← hx.tainted, ← hy.tainted]
  refine (((h.afterRead he).writeD dn hr).applyLogicalFlags fun htc => ?_).setCycles _ _
  rw [Bool.or_eq_false_iff] at htc
  rw [hx.eq_of_clean htc.1, hy.eq_of_clean htc.2]

theorem orToEaResult_agree (h : Agree s s') (hm : s.mem.wf) (hm' : s'.mem.wf) {sz : Size} (dn : RegNo) {dst : Ea}
    {a : Addr} (he : eaAddress dst sz s = eaAddress dst sz s') (hacc : s.mem.accepts a sz.bytes = true) :
    Agree (orToEaResult sz dn dst a s) (orToEaResult sz dn dst a s') := by
  have hx := readD_agree h dn sz.bytes
  have hy := load_agree h.cell a sz.bytes
  have hr := alu_agree sz hx hy
  have hacc' : s'.mem.accepts a sz.bytes = true := (acc_agree h a _).symm.trans hacc
  have hstore := ((h.afterRead he).logOp .write a sz.bytes).setMem
    (m := s.mem.storeBytes a (alu .or (s.readD dn sz.bytes) (s.mem.loadBytes a sz.bytes)) sz.bytes)
    (m' := s'.mem.storeBytes a (alu .or (s'.readD dn sz.bytes) (s'.mem.loadBytes a sz.bytes)) sz.bytes)
    (by simpa using h.map)
    fun b => cell_storeBytes_rel hm hm' (accepts_allMapped hacc) (accepts_allMapped hacc') (bytes_le_space sz)
      (agree_lane_iff.1 hr) (h.cell b)
  simp only [orToEaResult, computeFlags, ← hx.tainted, ← hy.tainted]
  refine (hstore.applyLogicalFlags fun htc => ?_).setCycles _ _
  rw [Bool.or_eq_false_iff] at htc
  rw [hx.eq_of_clean htc.1, hy.eq_of_clean htc.2]

theorem storeLanes_agree (h : Agree s s') (hm : s.mem.wf) (hm' : s'.mem.wf) {a : Addr} {k : Nat} {v v' : TV k}
    (hv : AgreeTV v v') (hacc : lanesAccepted s.mem a k = true) (hk : k ≤ 2 ^ 31) :
    Agree { logLanes s .write a k with mem := storeLanes s.mem a v k }
      { logLanes s' .write a k with mem := storeLanes s'.mem a v' k } := by
  have hacc' : lanesAccepted s'.mem a k = true := (lanesAccepted_congr h.map a k).symm.trans hacc
  exact (h.logLanes .write a k).setMem (by simpa using h.map)
    fun b => cell_storeLanes_rel hm hm' hacc hacc' hk (agree_lane_iff.1 hv) (h.cell b)

/-! Each shape: the port accepts in both states or in neither, and refuses with the same fault. -/

theorem eaCycles_agree (h : Agree s s') (ea : Ea) (sz : Size) : s.eaCycles ea sz = s'.eaCycles ea sz := by
  rw [State.eaCycles, State.eaCycles, h.costs]

theorem orToReg_agree (h : Agree s s') {sz : Size} {src : Ea} (dn : RegNo) (hs : src.isSource = true)
    (he : eaAddress src sz s = eaAddress src sz s') :
    AgreeOutcome (deliver (orToReg sz src dn s)) (deliver (orToReg sz src dn s')) := by
  have hacc : operandAccepted src sz s = operandAccepted src sz s' := by
    unfold operandAccepted
    rw [← he]
    split
    · exact acc_agree h _ _
    · rfl
  cases ha : operandAccepted src sz s with
  | true =>
    rw [orToReg_of_accepted hs ha, orToReg_of_accepted hs (hacc ▸ ha)]
    exact ⟨orToRegResult_agree h dn he, congrArg (orBaseToReg sz + ·) (eaCycles_agree h src sz)⟩
  | false =>
    unfold operandAccepted at ha
    split at ha
    · next a hea =>
      rw [(or_of_refused hea ha).1, (or_of_refused (he ▸ hea) ((acc_agree h a _).symm.trans ha)).1]
      rfl
    · cases ha

theorem orToEa_agree (h : Agree s s') (hm : s.mem.wf) (hm' : s'.mem.wf) {sz : Size} (dn : RegNo) {dst : Ea}
    (hd : dst.isDest = true) (he : eaAddress dst sz s = eaAddress dst sz s') :
    AgreeOutcome (deliver (orToEa sz dn dst s)) (deliver (orToEa sz dn dst s')) := by
  obtain ⟨⟨a, hea⟩, -⟩ := isDest_address (sz := sz) (s := s) hd
  have hea' : eaAddress dst sz s' = some a := he ▸ hea
  have hacc := acc_agree h a sz.bytes
  cases ha : s.mem.accepts a sz.bytes with
  | true =>
    rw [orToEa_of_accepted hd hea ha, orToEa_of_accepted hd hea' (hacc ▸ ha)]
    exact ⟨orToEaResult_agree h hm hm' dn he ha, congrArg (orBaseToEa sz + ·) (eaCycles_agree h dst sz)⟩
  | false =>
    rw [(or_of_refused hea ha).2, (or_of_refused hea' (hacc ▸ ha)).2]
    rfl

/-- The first refused lane is the same in both states (44 R190). -/
theorem movep_refused_agree (hmap : s.mem.map = s'.mem.map) {d16 : BitVec 16} {ay : RegNo}
    (hb : movepBase s ay d16 = movepBase s' ay d16) {k : Nat} (ha : lanesAccepted s.mem (movepBase s ay d16) k = false)
    (c : Nat) (dx : RegNo) :
    AgreeOutcome (deliver (movepToReg k c d16 ay dx s)) (deliver (movepToReg k c d16 ay dx s')) ∧
    AgreeOutcome (deliver (movepToMem k c dx d16 ay s)) (deliver (movepToMem k c dx d16 ay s')) := by
  obtain ⟨j, hj, hok, hbad⟩ := lanes_first_refused ha
  obtain ⟨hr, hw⟩ := lanes_refused (s.readD dx k) s _ hj hok hbad
  rw [lanesAccepted_congr hmap] at hok
  rw [accepts_congr hmap] at hbad
  obtain ⟨hr', hw'⟩ := lanes_refused (s'.readD dx k) s' _ hj hok hbad
  simp [movepToReg, movepToMem, bind, Except.bind, ← hb, hr, hw, hr', hw', deliver, AgreeOutcome]

theorem movepToReg_agree (h : Agree s s') {k c : Nat} {d16 : BitVec 16} {ay : RegNo} (dx : RegNo)
    (hb : movepBase s ay d16 = movepBase s' ay d16) :
    AgreeOutcome (deliver (movepToReg k c d16 ay dx s)) (deliver (movepToReg k c d16 ay dx s')) := by
  have hacc := lanesAccepted_congr h.map (movepBase s ay d16) k
  cases ha : lanesAccepted s.mem (movepBase s ay d16) k with
  | true =>
    rw [movepToReg_of_accepted ha, movepToReg_of_accepted (hb ▸ hacc ▸ ha), ← hb]
    exact ⟨((h.logLanes _ _ _).writeD dx (laneValue_agree h.cell _ _)).setCycles _ _, rfl⟩
  | false => exact (movep_refused_agree h.map hb ha c dx).1

theorem movepToMem_agree (h : Agree s s') (hm : s.mem.wf) (hm' : s'.mem.wf) {k c : Nat} (hk : k ≤ 2 ^ 31) (dx : RegNo)
    {d16 : BitVec 16} {ay : RegNo} (hb : movepBase s ay d16 = movepBase s' ay d16) :
    AgreeOutcome (deliver (movepToMem k c dx d16 ay s)) (deliver (movepToMem k c dx d16 ay s')) := by
  have hacc := lanesAccepted_congr h.map (movepBase s ay d16) k
  cases ha : lanesAccepted s.mem (movepBase s ay d16) k with
  | true =>
    rw [movepToMem_of_accepted ha, movepToMem_of_accepted (hb ▸ hacc ▸ ha), ← hb]
    exact ⟨(storeLanes_agree h hm hm' (readD_agree h dx k) ha hk).setCycles _ _, rfl⟩
  | false => exact (movep_refused_agree h.map hb ha c dx).2

/-! The data address of each shape. -/

theorem dataAddress_mkOrToReg (sz : Size) (src : Ea) (dn : RegNo) (s : State) :
    dataAddress (mkOrToReg sz src dn) s = eaAddress src sz s := by cases sz <;> rfl

theorem dataAddress_mkOrToEa (sz : Size) (dn : RegNo) (dst : Ea) (s : State) :
    dataAddress (mkOrToEa sz dn dst) s = eaAddress dst sz s := by cases sz <;> rfl

theorem dataAddress_mkMovepToReg (l : Bool) (d16 : BitVec 16) (ay dx : RegNo) (s : State) :
    dataAddress (mkMovepToReg l d16 ay dx) s = some (movepBase s ay d16) := by cases l <;> rfl

theorem dataAddress_mkMovepToMem (l : Bool) (dx : RegNo) (d16 : BitVec 16) (ay : RegNo) (s : State) :
    dataAddress (mkMovepToMem l dx d16 ay) s = some (movepBase s ay d16) := by cases l <;> rfl

theorem movepCycles_agree (h : Agree s s') (l : Bool) : movepCycles s l = movepCycles s' l := by
  rw [movepCycles, movepCycles, h.costs]

end

/-- Settles O19: by the instruction's shape, from the rules of its operations. -/
theorem taintCoversDataFlow : Obligations.TaintCoversDataFlow := by
  intro i s s' hi hm hm' h he
  rcases instr_shape i with ⟨sz, src, dn, rfl⟩ | ⟨sz, dn, dst, rfl⟩ | ⟨l, d16, ay, dx, rfl⟩ | ⟨l, dx, d16, ay, rfl⟩ |
    ⟨op, imm16, rfl⟩
  · rw [dataAddress_mkOrToReg, dataAddress_mkOrToReg] at he
    rw [exec_mkOrToReg, exec_mkOrToReg]
    exact orToReg_agree h dn (wf_mkOrToReg hi) he
  · rw [dataAddress_mkOrToEa, dataAddress_mkOrToEa] at he
    rw [exec_mkOrToEa, exec_mkOrToEa]
    exact orToEa_agree h hm hm' dn (wf_mkOrToEa hi) he
  · rw [dataAddress_mkMovepToReg, dataAddress_mkMovepToReg] at he
    rw [exec_mkMovepToReg, exec_mkMovepToReg, ← movepCycles_agree h]
    exact movepToReg_agree h dx (Option.some.inj he)
  · rw [dataAddress_mkMovepToMem, dataAddress_mkMovepToMem] at he
    rw [exec_mkMovepToMem, exec_mkMovepToMem, ← movepCycles_agree h]
    exact movepToMem_agree h hm hm' (movepBytes_le_space l) dx (Option.some.inj he)
  · rw [exec_mkCcr, exec_mkCcr]
    exact ⟨(h.flagByteWrite op _).setCycles _ _, rfl⟩

end Sys2Proof.Machine
end

section
/-! SUPPORT. Narrow register access (10_state.md R24) and the introspection accessors (R33). -/

namespace Sys2Proof.Machine

/-- Settles O22, from the laws of narrow access to a slot and of a write to one data register. -/
theorem narrowAccessKeepsUpperBytes : Obligations.NarrowAccessKeepsUpperBytes := by
  refine fun sz v => ⟨fun slot => ⟨rfl, ?_, ?_, ?_⟩, fun s r => ⟨rfl, ?_, fun q hq => ?_⟩⟩
  · exact TV.low_setLow slot v (bytes_le_four sz)
  · exact TV.setLow_val_above slot v
  · exact TV.setLow_t_above slot v
  · rw [get_writeD, if_pos rfl]
  · rw [get_writeD, if_neg hq]

/-- The flag byte's taint is the OR of the five (10 R33). -/
theorem introspectFlagByte_tainted (s : State) :
    (introspectFlagByte s).tainted = true ↔ ∃ i : Fin 5, (introspectFlag s i).2 = true := by
  have hbit : ∀ b, (BitVec.ofBool b != 0) = b := by decide
  simp only [TV.tainted, introspectFlagByte, introspectFlag, hbit, bne_iff_ne]
  constructor
  · intro hft
    by_contra hnone
    push Not at hnone
    exact hft (BitVec.eq_of_getLsbD_eq fun i hi => by simpa using hnone ⟨i, hi⟩)
  · rintro ⟨i, hi⟩ hft
    simp [hft] at hi

/-- Settles O21: the accessors read the fields they name, and only the flag byte combines taints. -/
theorem introspectionAccessors : Obligations.IntrospectionAccessors := fun s =>
  ⟨fun _ => rfl, fun _ => rfl, rfl, rfl, introspectFlagByte_tainted s, rfl, rfl, rfl, rfl, rfl, rfl⟩

end Sys2Proof.Machine
end

section
/-! SUPPORT. The memory port (20_memory.md): big-endian reads (R52, R53), the round trip (R54), which accesses it accepts
(R55, R68), and the operations a step issues to it, one rule per shape of instruction (R57, R59). -/

namespace Sys2Proof.Machine

/-! ### Reads and writes -/

/-- Settles O23: the lane law of a load, at each lane of the three widths. -/
theorem memoryReadsAreBigEndian : Obligations.MemoryReadsAreBigEndian := fun m a =>
  ⟨loadBytes_one m a,
    by simpa using lane_loadBytes m a (n := 2) (k := 1) (by decide),
    lane_loadBytes m a (n := 2) (k := 0) (by decide),
    by simpa using lane_loadBytes m a (n := 4) (k := 3) (by decide),
    lane_loadBytes m a (n := 4) (k := 2) (by decide),
    lane_loadBytes m a (n := 4) (k := 1) (by decide), lane_loadBytes m a (n := 4) (k := 0) (by decide)⟩

/-- Settles O24: an accepted write is the store, and the laws of the store say the rest. -/
theorem memoryWriteReadsBack : Obligations.MemoryWriteReadsBack := fun sz s a v hm hacc =>
  have hmapped := accepts_allMapped hacc
  ⟨_, memWrite_of_accepts hacc, loadBytes_storeBytes hm v hmapped (bytes_le_space sz), storeBytes_wf hm v hmapped,
    fun b hb => cell_storeBytes_outside s.mem a b v sz.bytes hb⟩

/-! ### What the port accepts -/

/-- The cells of an access are all mapped exactly if each of them is, at its address modulo 2^32 (20 R68). -/
theorem allMapped_iff {m : Memory} {a : Addr} {n : Nat} :
    m.allMapped a n = true ↔ ∀ i, i < n → m.mapped (a + BitVec.ofNat 32 i).toNat = true := by
  refine ⟨fun h i hi => mapped_of_allMapped h hi, fun h => ?_⟩
  induction n generalizing a with
  | zero => rfl
  | succ n ih =>
    have hfirst : m.mapped a.toNat = true := by simpa using h 0 n.succ_pos
    have hrest : m.allMapped (a + 1) n = true := ih fun i hi => by
      rw [← offset_succ]; exact h (i + 1) (Nat.succ_lt_succ hi)
    rw [Memory.allMapped, hfirst, hrest, Bool.and_self]

/-- A byte access is accepted exactly if its cell is mapped (20 R55: no alignment is asked of it). -/
theorem accepts_one (m : Memory) (a : Addr) : m.accepts a 1 = m.mapped a.toNat := by
  simp [Memory.accepts, Memory.allMapped]

/-- A wider access is accepted exactly if it is aligned and every cell of it is mapped (20 R55, R68). -/
theorem accepts_wide_iff {m : Memory} {a : Addr} {n : Nat} (hn : n ≠ 1) :
    m.accepts a n = true ↔ a.getLsbD 0 = false ∧ m.allMapped a n = true := by
  simp [Memory.accepts, alignCheck, hn]

theorem accepts_of_odd {m : Memory} {a : Addr} {n : Nat} (hn : n ≠ 1) (hodd : a.getLsbD 0 = true) :
    m.accepts a n = false := by
  simp [← Bool.not_eq_true, accepts_wide_iff hn, hodd]

theorem accepts_of_unmapped {m : Memory} {a : Addr} {n i : Nat} (hi : i < n)
    (hcell : m.mapped (a + BitVec.ofNat 32 i).toNat = false) : m.accepts a n = false := by
  rw [Memory.accepts, allMapped_of_unmapped hi hcell, Bool.and_false]

theorem memRead_refused {s : State} {a : Addr} {n : Nat} (k : AccessKind) (h : s.mem.accepts a n = false) :
    s.memRead k a n = .error (.addressingFault a n k) := by simp [State.memRead, h]

theorem memWrite_refused {s : State} {a : Addr} {n : Nat} (v : TV n) (h : s.mem.accepts a n = false) :
    s.memWrite a v = .error (.addressingFault a n .write) := by simp [State.memWrite, h]

/-- Settles O25: an odd address or an unmapped cell is all that can make the port refuse. -/
theorem portRefusals : Obligations.PortRefusals := by
  refine ⟨fun s k a hodd => ⟨?_, ?_⟩, fun s a v hodd => ?_, fun s a v hodd => ?_,
    fun sz s k a i hi hcell => ⟨?_, fun v => ?_⟩, accepts_one, fun m a n hn => ?_⟩
  · exact memRead_refused k (accepts_of_odd (by decide) hodd)
  · exact memRead_refused k (accepts_of_odd (by decide) hodd)
  · exact memWrite_refused v (accepts_of_odd (by decide) hodd)
  · exact memWrite_refused v (accepts_of_odd (by decide) hodd)
  · exact memRead_refused k (accepts_of_unmapped hi hcell)
  · exact memWrite_refused v (accepts_of_unmapped hi hcell)
  · rw [accepts_wide_iff (by omega), allMapped_iff]

/-! ### The operations a step issues -/

theorem orToRegResult_ops (sz : Size) (src : Ea) (dn : RegNo) (s : State) :
    (orToRegResult sz src dn s).ops = s.ops ++ dataOps (mkOrToReg sz src dn) s := by
  have hread : (orToRegResult sz src dn s).ops = (afterRead src sz s).ops := rfl
  rw [hread, afterRead_ops]
  cases sz <;> rfl

theorem orToEaResult_ops {sz : Size} {dst : Ea} {a : Addr} {s : State} (dn : RegNo) (ha : eaAddress dst sz s = some a) :
    (orToEaResult sz dn dst a s).ops = s.ops ++ dataOps (mkOrToEa sz dn dst) s := by
  have hwrite : (orToEaResult sz dn dst a s).ops = (afterRead dst sz s).ops ++ [⟨.write, a, sz.bytes⟩] := rfl
  have hdata : dataOps (mkOrToEa sz dn dst) s = [⟨.read, a, sz.bytes⟩, ⟨.write, a, sz.bytes⟩] := by
    cases sz <;> simp [mkOrToEa, dataOps, ha]
  rw [hwrite, hdata, afterRead_ops, ha, List.append_assoc]
  rfl

theorem dataOps_mkMovepToReg (l : Bool) (d16 : BitVec 16) (ay dx : RegNo) (s : State) :
    dataOps (mkMovepToReg l d16 ay dx) s = laneOps .read (movepBase s ay d16) (movepBytes l) := by cases l <;> rfl

theorem dataOps_mkMovepToMem (l : Bool) (dx : RegNo) (d16 : BitVec 16) (ay : RegNo) (s : State) :
    dataOps (mkMovepToMem l dx d16 ay) s = laneOps .write (movepBase s ay d16) (movepBytes l) := by cases l <;> rfl

theorem dataOps_mkCcr (op : CcrOp) (imm16 : BitVec 16) (s : State) : dataOps (mkCcr op imm16) s = [] := by
  cases op <;> rfl

/-- An instruction that completes issues its data operations after those already recorded (20 R57, R59). -/
theorem exec_ops {i : Instr} {s t : State} (hi : i.wf = true) (h : exec i s = .next t) :
    t.ops = s.ops ++ dataOps i s := by
  rcases exec_next hi h with ⟨sz, src, dn, rfl, -, rfl⟩ | ⟨sz, dn, dst, a, rfl, -, ha, -, rfl⟩ |
    ⟨l, d16, ay, dx, rfl, -, rfl⟩ | ⟨l, dx, d16, ay, rfl, -, rfl⟩ | ⟨op, imm16, rfl, rfl⟩
  · exact orToRegResult_ops sz src dn s
  · exact orToEaResult_ops dn ha
  · rw [dataOps_mkMovepToReg]; rfl
  · rw [dataOps_mkMovepToMem]; rfl
  · rw [dataOps_mkCcr, List.append_nil]; rfl

/-- A step runs the instruction whose words lie at `pc`, in the state after their fetches (40 R100 to R104). -/
theorem step_of_wordsAt {s : State} {ws : List Word} {i : Instr} (hh : s.halted = false)
    (hd : decodeWords ws = .ok (i, [])) (hw : wordsAt s.mem s.pc ws) : step s = exec i (afterFetch s ws.length) := by
  simp [step, hh, fetchInstr_of_wordsAt (s := s.beginStep) hd hw, fetched_beginStep]

/-- Settles O17: the record begins with the fetches, and the instruction adds its data operations. -/
theorem stepIssuesPortOperationsInOrder : Obligations.StepIssuesPortOperationsInOrder := by
  intro s t ws i hd hw h
  rw [step_of_wordsAt (step_next h).1 hd hw] at h
  exact exec_ops (decodeWords_wf hd) h

end Sys2Proof.Machine
end

section
/-! SUPPORT. The encoding (30_encoding.md): the two round trips between words and instructions (R80 to R88), the decoder on
bytes (R80, R92), and the words that each row of the opcode map selects (R89, R90). -/

namespace Sys2Proof.Machine

/-! ### The words of each shape of instruction -/

theorem encode_mkOrToReg (sz : Size) (src : Ea) (dn : RegNo) :
    encode (mkOrToReg sz src dn) = orOpcode (.orToReg sz) dn src :: src.extWords sz := by cases sz <;> rfl

theorem encode_mkOrToEa (sz : Size) (dn : RegNo) (dst : Ea) :
    encode (mkOrToEa sz dn dst) = orOpcode (.orToEa sz) dn dst :: dst.extWords sz := by cases sz <;> rfl

theorem encode_mkMovepToReg (l : Bool) (d16 : BitVec 16) (ay dx : RegNo) :
    encode (mkMovepToReg l d16 ay dx) = [movepOpcode (.movepToReg l) dx ay, d16] := by cases l <;> rfl

theorem encode_mkMovepToMem (l : Bool) (dx : RegNo) (d16 : BitVec 16) (ay : RegNo) :
    encode (mkMovepToMem l dx d16 ay) = [movepOpcode (.movepToMem l) dx ay, d16] := by cases l <;> rfl

theorem decodeForm_orToReg (sz : Size) (w x0 x1 : Word) : decodeForm (.orToReg sz) w x0 x1 =
    mkOrToReg sz (decodeEa sz (field3 w 3) (field3 w 0) x0 x1) (field3 w 9) := by cases sz <;> rfl

theorem decodeForm_orToEa (sz : Size) (w x0 x1 : Word) : decodeForm (.orToEa sz) w x0 x1 =
    mkOrToEa sz (field3 w 9) (decodeEa sz (field3 w 3) (field3 w 0) x0 x1) := by cases sz <;> rfl

theorem decodeForm_movepToReg (l : Bool) (w x0 x1 : Word) :
    decodeForm (.movepToReg l) w x0 x1 = mkMovepToReg l x0 (field3 w 0) (field3 w 9) := by cases l <;> rfl

theorem decodeForm_movepToMem (l : Bool) (w x0 x1 : Word) :
    decodeForm (.movepToMem l) w x0 x1 = mkMovepToMem l (field3 w 9) x0 (field3 w 0) := by cases l <;> rfl

/-! ### Legal operands -/

theorem immFits_of_isDest {ea : Ea} (h : ea.isDest = true) (sz : Size) : ea.immFits sz = true := by
  cases ea <;> first | rfl | cases h

theorem immFits_of_wf_mkOrToReg {sz : Size} {src : Ea} {dn : RegNo} (h : (mkOrToReg sz src dn).wf = true) :
    src.immFits sz = true := by
  cases sz <;> exact (Bool.and_eq_true _ _ ▸ h).2

/-! ### Decoding what was encoded -/

/-- A populated word with exactly its extension words decodes from the front of any words. -/
theorem decodeWords_append {w : Word} {f : Form} {ext : List Word} (rest : List Word) (hf : dispatchTable w = some f)
    (hl : ext.length = f.extWords w) : decodeWords (w :: ext ++ rest) =
      .ok (decodeForm f w ((ext ++ rest).getD 0 0) ((ext ++ rest).getD 1 0), rest) := by
  have hle : f.extWords w ≤ (ext ++ rest).length := by simp [← hl]
  rw [List.cons_append, decodeWords_cons hf hle, ← hl, List.drop_left]

theorem decodeWords_mkOrToReg {sz : Size} {src : Ea} (dn : RegNo) (rest : List Word) (hs : src.isSource = true)
    (hi : src.immFits sz = true) :
    decodeWords (encode (mkOrToReg sz src dn) ++ rest) = .ok (mkOrToReg sz src dn, rest) := by
  obtain ⟨hf, h9, h3, h0⟩ := (orWord_fields sz dn src.mode src.reg).1 (Laws.DispatchesToForm.eaLegal_source sz hs)
  rw [encode_mkOrToReg, orOpcode, decodeWords_append rest hf, decodeForm_orToReg, h9, h3, h0,
    decodeEa_extWords sz src rest hs hi]
  rw [Form.extWords, h3, h0, length_extWords sz src hs]

theorem decodeWords_mkOrToEa {dst : Ea} (sz : Size) (dn : RegNo) (rest : List Word) (hd : dst.isDest = true) :
    decodeWords (encode (mkOrToEa sz dn dst) ++ rest) = .ok (mkOrToEa sz dn dst, rest) := by
  have hs := isSource_of_isDest hd
  obtain ⟨hf, h9, h3, h0⟩ := (orWord_fields sz dn dst.mode dst.reg).2 (Laws.DispatchesToForm.eaLegal_dest sz hd)
  rw [encode_mkOrToEa, orOpcode, decodeWords_append rest hf, decodeForm_orToEa, h9, h3, h0,
    decodeEa_extWords sz dst rest hs (immFits_of_isDest hd sz)]
  rw [Form.extWords, h3, h0, length_extWords sz dst hs]

theorem decodeWords_mkMovepToReg (l : Bool) (d16 : BitVec 16) (ay dx : RegNo) (rest : List Word) :
    decodeWords (encode (mkMovepToReg l d16 ay dx) ++ rest) = .ok (mkMovepToReg l d16 ay dx, rest) := by
  obtain ⟨hf, h9, h0⟩ := (movepWord_fields l dx ay).1
  rw [encode_mkMovepToReg, decodeWords_append rest hf rfl, decodeForm_movepToReg, h9, h0]
  rfl

theorem decodeWords_mkMovepToMem (l : Bool) (dx : RegNo) (d16 : BitVec 16) (ay : RegNo) (rest : List Word) :
    decodeWords (encode (mkMovepToMem l dx d16 ay) ++ rest) = .ok (mkMovepToMem l dx d16 ay, rest) := by
  obtain ⟨hf, h9, h0⟩ := (movepWord_fields l dx ay).2
  rw [encode_mkMovepToMem, decodeWords_append rest hf rfl, decodeForm_movepToMem, h9, h0]
  rfl

theorem decodeWords_mkCcr (op : CcrOp) (imm16 : BitVec 16) (rest : List Word) :
    decodeWords (encode (mkCcr op imm16) ++ rest) = .ok (mkCcr op imm16, rest) := by
  obtain ⟨hor, hand, heor⟩ := ccrWord_dispatch
  cases op with
  | or => exact decodeWords_append (ext := [imm16]) rest hor rfl
  | and => exact decodeWords_append (ext := [imm16]) rest hand rfl
  | eor => exact decodeWords_append (ext := [imm16]) rest heor rfl

/-- Settles O1, shape by shape. -/
theorem decodeOfEncodeIsIdentity : Obligations.DecodeOfEncodeIsIdentity := by
  intro i rest hi
  rcases instr_shape i with ⟨sz, src, dn, rfl⟩ | ⟨sz, dn, dst, rfl⟩ | ⟨l, d16, ay, dx, rfl⟩ | ⟨l, dx, d16, ay, rfl⟩ |
    ⟨op, imm16, rfl⟩
  · exact decodeWords_mkOrToReg dn rest (wf_mkOrToReg hi) (immFits_of_wf_mkOrToReg hi)
  · exact decodeWords_mkOrToEa sz dn rest (wf_mkOrToEa hi)
  · exact decodeWords_mkMovepToReg l d16 ay dx rest
  · exact decodeWords_mkMovepToMem l dx d16 ay rest
  · exact decodeWords_mkCcr op imm16 rest

/-! ### Encoding what was decoded -/

theorem eaExtWords_le_two (sz : Size) (mode reg : RegNo) : eaExtWords sz mode reg ≤ 2 := by
  unfold eaExtWords
  split <;> first | omega | split <;> omega

/-- No instruction is longer than three words (R80). -/
theorem extWords_le_two (f : Form) (w : Word) : f.extWords w ≤ 2 := by
  cases f with
  | orToReg sz | orToEa sz => exact eaExtWords_le_two sz _ _
  | movepToReg l | movepToMem l => exact one_le_two
  | oriCcr | andiCcr | eoriCcr => exact one_le_two

/-- The words the decoder looks at are the extension words that are there. -/
theorem take_getD_pair {xs : List Word} {k : Nat} (h2 : k ≤ 2) (hk : k ≤ xs.length) :
    [xs.getD 0 0, xs.getD 1 0].take k = xs.take k := by
  match k, xs with
  | 0, _ => rfl
  | 1, _ :: _ => rfl
  | 2, _ :: _ :: _ => rfl

/-- A word whose fixed bits are a form's and whose EA field is an operand's is the opcode word of format F-OR (R82). -/
theorem orOpcode_of_fields {w : Word} {f : Form} {ea : Ea} (h : w &&& 0xF1C0 = f.pattern) (hm : ea.mode = field3 w 3)
    (hr : ea.reg = field3 w 0) : orOpcode f (field3 w 9) ea = w := by
  rw [orOpcode, hm, hr, ← h, orWord_rebuild]

/-- A word whose fixed bits are a form's is the opcode word of format F-MOVEP (R83). -/
theorem movepOpcode_of_fields {w : Word} {f : Form} (h : w &&& 0xF1F8 = f.pattern) :
    movepOpcode f (field3 w 9) (field3 w 0) = w := by
  rw [movepOpcode, ← h, movepWord_rebuild]

/-- What a populated word and two words after it decode to encodes to that word and the extension words it calls for. -/
theorem encode_decodeForm {w : Word} {f : Form} (hf : dispatchTable w = some f) (x0 x1 : Word) :
    encode (decodeForm f w x0 x1) = w :: [x0, x1].take (f.extWords w) := by
  have hbits := dispatchTable_fixedBits hf
  have hlegal := dispatchTable_eaLegal hf
  cases f with
  | orToReg sz =>
    obtain ⟨hm, hr⟩ := decodeEa_mode_reg sz (field3 w 3) (field3 w 0) x0 x1
    have hs := ((decodeEa_legal sz _ _ x0 x1).1 hlegal).1
    rw [decodeForm_orToReg, encode_mkOrToReg, orOpcode_of_fields hbits hm hr, extWords_decodeEa sz _ _ x0 x1 hs]
    rfl
  | orToEa sz =>
    obtain ⟨hm, hr⟩ := decodeEa_mode_reg sz (field3 w 3) (field3 w 0) x0 x1
    have hs := isSource_of_isDest ((decodeEa_legal sz _ _ x0 x1).2 hlegal)
    rw [decodeForm_orToEa, encode_mkOrToEa, orOpcode_of_fields hbits hm hr, extWords_decodeEa sz _ _ x0 x1 hs]
    rfl
  | movepToReg l =>
    rw [decodeForm_movepToReg, encode_mkMovepToReg, movepOpcode_of_fields hbits]
    rfl
  | movepToMem l =>
    rw [decodeForm_movepToMem, encode_mkMovepToMem, movepOpcode_of_fields hbits]
    rfl
  | oriCcr | andiCcr | eoriCcr => exact congrArg (· :: [x0]) hbits.symm

/-- Settles O2: the words decoded from are the opcode word, its extension words, and the rest. -/
theorem encodeOfDecodeIsIdentity : Obligations.EncodeOfDecodeIsIdentity := by
  intro ws i rest h
  refine ⟨decodeWords_wf h, ?_⟩
  obtain ⟨w, xs, f, rfl, hf, hlen, rfl, rfl⟩ := decodeWords_ok h
  rw [encode_decodeForm hf, take_getD_pair (extWords_le_two f w) hlen, List.cons_append, List.take_append_drop]

/-! ### Bytes -/

theorem wordOfBytes_bytesOfWord (w : Word) : wordOfBytes (w.extractLsb' 8 8) (w.extractLsb' 0 8) = w := by
  rw [wordOfBytes, BitVec.extractLsb'_append_extractLsb'_eq_extractLsb' (by rfl)]
  exact BitVec.extractLsb'_eq_self

/-- Bytes that begin with the bytes of some words give those words first (20_memory.md R52). -/
theorem wordsOfBytes_flatMap (ws : List Word) (rest : List (BitVec 8)) :
    wordsOfBytes (ws.flatMap bytesOfWord ++ rest) = ws ++ wordsOfBytes rest := by
  induction ws with
  | nil => rfl
  | cons w ws ih =>
    show wordOfBytes (w.extractLsb' 8 8) (w.extractLsb' 0 8) :: wordsOfBytes (ws.flatMap bytesOfWord ++ rest) = _
    rw [wordOfBytes_bytesOfWord, ih, List.cons_append]

theorem length_encodeBytes (i : Instr) : (encodeBytes i).length = 2 * (encode i).length := by
  rw [encodeBytes, List.length_flatMap]
  simp [bytesOfWord, mul_comm]

/-- A well-formed instruction is one opcode word and at most two extension words (R80, R92). -/
theorem length_encode {i : Instr} (hi : i.wf = true) : 1 ≤ (encode i).length ∧ (encode i).length ≤ 3 := by
  obtain ⟨w, xs, f, hws, -, -, -, hrest⟩ := decodeWords_ok (decodeOfEncodeIsIdentity i [] hi)
  have hext : xs.length ≤ f.extWords w := List.drop_eq_nil_iff.1 hrest.symm
  have := extWords_le_two f w
  rw [List.append_nil] at hws
  rw [hws, List.length_cons]
  omega

/-- Settles O3: the decoder on bytes is the decoder on their words, and the length is twice the words it took. -/
theorem decodeBytesGivesInstructionAndLength : Obligations.DecodeBytesGivesInstructionAndLength := by
  intro i rest hi
  have hwords : wordsOfBytes (encodeBytes i ++ rest) = encode i ++ wordsOfBytes rest := wordsOfBytes_flatMap _ _
  have hlen := length_encode hi
  have hbytes := length_encodeBytes i
  constructor
  · simp only [decode, hwords, decodeOfEncodeIsIdentity i _ hi, hbytes, List.length_append, Nat.add_sub_cancel]
  · omega

/-! ### The words a row selects -/

/-- Two rows whose fixed bits agree wherever both fix a bit are the same row (R90). -/
theorem rows_eq_of_compatible :
    ∀ r ∈ rows, ∀ q ∈ rows, r.pattern &&& q.mask = q.pattern &&& r.mask → r = q := by decide

theorem fixedBits_of_selects {r : Row} {w : Word} (h : r.selects w = true) : w &&& r.mask = r.pattern := by
  simp only [Row.selects, Bool.and_eq_true] at h
  exact eq_of_beq h.1

/-- No word selects two rows (R90). -/
theorem rows_disjoint {r q : Row} (hr : r ∈ rows) (hq : q ∈ rows) {w : Word} (hrw : r.selects w = true)
    (hqw : q.selects w = true) : r = q := by
  apply rows_eq_of_compatible r hr q hq
  rw [← fixedBits_of_selects hrw, ← fixedBits_of_selects hqw, BitVec.and_assoc, BitVec.and_assoc,
    BitVec.and_comm r.mask]

/-- The words of a logical-OR row are its fixed bits with any `dn` and a legal EA field (R82, R89). -/
theorem dispatchTable_or_iff (w : Word) {f : Form} (h : ∃ sz, f = .orToReg sz ∨ f = .orToEa sz) :
    dispatchTable w = some f ↔ ∃ dn mode reg : RegNo, f.eaLegal mode reg = true ∧
      w = f.pattern ||| placeField dn 9 ||| placeField mode 3 ||| placeField reg 0 := by
  constructor
  · intro hf
    have hbits : w &&& 0xF1C0 = f.pattern := by
      obtain ⟨sz, rfl | rfl⟩ := h <;> exact dispatchTable_fixedBits hf
    exact ⟨field3 w 9, field3 w 3, field3 w 0, dispatchTable_eaLegal hf, by rw [← hbits, orWord_rebuild]⟩
  · rintro ⟨dn, mode, reg, hlegal, rfl⟩
    obtain ⟨sz, rfl | rfl⟩ := h
    · exact ((orWord_fields sz dn mode reg).1 hlegal).1
    · exact ((orWord_fields sz dn mode reg).2 hlegal).1

/-- The words of a byte-transfer row are its fixed bits with any two registers (R83, R89). -/
theorem dispatchTable_movep_iff (w : Word) {f : Form} (h : ∃ l, f = .movepToReg l ∨ f = .movepToMem l) :
    dispatchTable w = some f ↔ ∃ dx ay : RegNo, w = f.pattern ||| placeField dx 9 ||| placeField ay 0 := by
  constructor
  · intro hf
    have hbits : w &&& 0xF1F8 = f.pattern := by
      obtain ⟨l, rfl | rfl⟩ := h <;> exact dispatchTable_fixedBits hf
    exact ⟨field3 w 9, field3 w 0, (movepOpcode_of_fields hbits).symm⟩
  · rintro ⟨dx, ay, rfl⟩
    obtain ⟨l, rfl | rfl⟩ := h
    · exact (movepWord_fields l dx ay).1.1
    · exact (movepWord_fields l dx ay).2.1

/-- Each flag-byte row selects its one word (R84, R89). -/
theorem dispatchTable_ccr_iff (w : Word) : (dispatchTable w = some .oriCcr ↔ w = 0x003C) ∧
    (dispatchTable w = some .andiCcr ↔ w = 0x023C) ∧ (dispatchTable w = some .eoriCcr ↔ w = 0x0A3C) := by
  obtain ⟨hor, hand, heor⟩ := ccrWord_dispatch
  exact ⟨⟨dispatchTable_fixedBits, (· ▸ hor)⟩, ⟨dispatchTable_fixedBits, (· ▸ hand)⟩,
    ⟨dispatchTable_fixedBits, (· ▸ heor)⟩⟩

/-- The register-dest rows have 53 legal EA codes, the EA-dest rows 42 (R89). -/
theorem eaLegal_counts (sz : Size) :
    (((List.finRange 8).flatMap fun mode => (List.finRange 8).filter ((Form.orToReg sz).eaLegal mode)).length = 53) ∧
    (((List.finRange 8).flatMap fun mode => (List.finRange 8).filter ((Form.orToEa sz).eaLegal mode)).length = 42) := by
  cases sz <;> decide

/-- Settles O4, one clause for each kind of row. -/
theorem opcodeSelectionsDisjointAndCounted : Obligations.OpcodeSelectionsDisjointAndCounted :=
  ⟨fun _ hr _ hq _ => rows_disjoint hr hq, fun w _ => dispatchTable_or_iff w, fun w _ => dispatchTable_movep_iff w,
    dispatchTable_ccr_iff, eaLegal_counts⟩

/-- Settles O5: each list of words is the encoding of its instruction, so it decodes to it. -/
theorem workedEncodingsDecode : Obligations.WorkedEncodingsDecode := by
  have decodes : ∀ {i : Instr} {ws : List Word}, i.wf = true → encode i = ws → decodeWords ws = .ok (i, []) := by
    rintro i _ hi rfl
    simpa using decodeOfEncodeIsIdentity i [] hi
  refine ⟨decodes ?_ ?_, decodes ?_ ?_, decodes ?_ ?_, decodes ?_ ?_, decodes ?_ ?_, decodes ?_ ?_, decodes ?_ ?_⟩
  all_goals decide

end Sys2Proof.Machine
end

section
/-! SUPPORT. The step and the dispatch (40_step_and_dispatch.md): how a fetch or a lookup ends it (R101, R103), what it
runs (R104), where it leaves `pc` (R105), and that a running block refuses nothing (R100). -/

namespace Sys2Proof.Machine

/-! ### How the fetch of an instruction ends without one -/

section
variable {s : State}

theorem fetchInstr_opcode_refused (h : s.mem.accepts s.pc 2 = false) :
    fetchInstr s = .error (.addressingFault s.pc 2 .fetch) := by
  simp only [fetchInstr, bind, Except.bind, fetch16_refused h]

/-- A word without an entry ends the fetch before any extension word (R103). -/
theorem fetchInstr_unpopulated (ha : s.mem.accepts s.pc 2 = true)
    (hf : dispatchTable (s.mem.loadBytes s.pc 2).val = none) :
    fetchInstr s = .error (.unimplementedOpcode (s.mem.loadBytes s.pc 2).val) := by
  simp only [fetchInstr, bind, Except.bind, fetch16_of_accepts ha, hf]

/-- The first extension word that the port refuses is the fault (20 R58). -/
theorem fetchInstr_extension_refused {w : Word} {xs : List Word} {f : Form} (hw : wordsAt s.mem s.pc (w :: xs))
    (hf : dispatchTable w = some f) (hlt : xs.length < f.extWords w)
    (hbad : s.mem.accepts (s.pc + BitVec.ofNat 32 (2 * (1 + xs.length))) 2 = false) :
    fetchInstr s = .error (.addressingFault (s.pc + BitVec.ofNat 32 (2 * (1 + xs.length))) 2 .fetch) := by
  obtain ⟨ha, rfl, hxs⟩ := hw
  have hpc : (fetched s 1).pc + BitVec.ofNat 32 (2 * xs.length) = s.pc + BitVec.ofNat 32 (2 * (1 + xs.length)) := by
    rw [Nat.add_comm 1]
    exact pc_offset2 s.pc xs.length
  rw [← hpc] at hbad ⊢
  simp only [fetchInstr, bind, Except.bind, fetch16_of_accepts ha, hf, fetchWords_refused (s := fetched s 1) hxs hlt hbad]

/-! ### The step by what its fetch answers -/

theorem step_of_fetchInstr_error {f : Fault} (hh : s.halted = false) (h : fetchInstr s.beginStep = .error f) :
    step s = .fault f := by
  simp [step, hh, h]

theorem step_of_fetchInstr_ok {i : Instr} {u : State} (hh : s.halted = false) (h : fetchInstr s.beginStep = .ok (i, u)) :
    step s = exec i u := by
  simp [step, hh, h]

end

/-! ### The program counter -/

/-- A list of words that decodes with none left is an opcode word and the extension words it calls for (30 R80). -/
theorem decodeWords_exact {ws : List Word} {i : Instr} (h : decodeWords ws = .ok (i, [])) :
    ∃ w xs f, ws = w :: xs ∧ dispatchTable w = some f ∧ xs.length = f.extWords w := by
  obtain ⟨w, xs, f, hws, hf, hle, -, hrest⟩ := decodeWords_ok h
  exact ⟨w, xs, f, hws, hf, Nat.le_antisymm (List.drop_eq_nil_iff.1 hrest.symm) hle⟩

/-- No instruction moves `pc`: only the fetches do (R105). -/
theorem exec_pc {i : Instr} {s t : State} (hi : i.wf = true) (h : exec i s = .next t) : t.pc = s.pc := by
  rcases exec_next hi h with ⟨sz, src, dn, -, -, rfl⟩ | ⟨sz, dn, dst, a, -, -, -, -, rfl⟩ |
    ⟨l, d16, ay, dx, -, -, rfl⟩ | ⟨l, dx, d16, ay, -, -, rfl⟩ | ⟨op, imm16, -, rfl⟩
  · exact afterRead_pc src sz s
  · exact afterRead_pc dst sz s
  · rfl
  · rfl
  · rfl

/-- A completed step has moved `pc` past the opcode word at it and that word's extension words (R105). -/
theorem step_pc {s t : State} (h : step s = .next t) :
    ∃ f, dispatchTable (s.mem.loadBytes s.pc 2).val = some f ∧
      t.pc = s.pc + BitVec.ofNat 32 (2 * (1 + f.extWords (s.mem.loadBytes s.pc 2).val)) := by
  obtain ⟨-, ws, i, hd, hw, hi, hx⟩ := step_next h
  obtain ⟨w, xs, f, rfl, hf, hlen⟩ := decodeWords_exact hd
  obtain ⟨-, rfl, -⟩ := hw
  refine ⟨f, hf, ?_⟩
  rw [exec_pc hi hx, ← hlen, Nat.add_comm 1]
  rfl

/-! ### The obligations -/

/-- Settles O8: the fetch of the instruction stops at the refused word, and the step answers that fault. -/
theorem refusedFetchFaults : Obligations.RefusedFetchFaults :=
  ⟨fun s hh hbad => step_of_fetchInstr_error hh (fetchInstr_opcode_refused (s := s.beginStep) hbad),
    fun s _ _ _ hh hw hf hlt hbad =>
      step_of_fetchInstr_error hh (fetchInstr_extension_refused (s := s.beginStep) hw hf hlt hbad)⟩

/-- Settles O9: the fetches alone move `pc`, and each form's extension words are counted by R85 or are one. -/
theorem stepAdvancesPcPastItsWords : Obligations.StepAdvancesPcPastItsWords := by
  intro s t h w
  obtain ⟨f, hf, hpc⟩ := step_pc h
  refine ⟨f, f.extWords w, hf, hpc, ?_⟩
  cases f with
  | orToReg sz | orToEa sz => exact ⟨rfl, eaExtWords_le_two sz _ _⟩
  | movepToReg l | movepToMem l => rfl
  | oriCcr | andiCcr | eoriCcr => rfl

/-- Settles O11: the fetch ends in a fault or gives an instruction, and no instruction refuses. -/
theorem runningBlockNeverRefuses : Obligations.RunningBlockNeverRefuses := by
  intro s r hh
  cases hfetch : fetchInstr s.beginStep with
  | error f =>
    rw [step_of_fetchInstr_error hh hfetch]
    exact fun h => nomatch h
  | ok p =>
    rw [step_of_fetchInstr_ok hh hfetch]
    exact exec_ne_refused p.1 p.2 r

/-- Settles O6: the fetches give exactly the words at `pc`, and the step runs what they decode to. -/
theorem stepExecutesDecodedInstruction : Obligations.StepExecutesDecodedInstruction :=
  fun _ _ _ => step_of_wordsAt

/-- Settles O7: the lookup has no entry, so the step ends before any extension word is fetched. -/
theorem unpopulatedWordFaults : Obligations.UnpopulatedWordFaults := fun s hh ha hf =>
  step_of_fetchInstr_error hh (fetchInstr_unpopulated (s := s.beginStep) ha hf)

end Sys2Proof.Machine
end

section
/-! SUPPORT. The effective-address resolver (41_ea_resolver.md): what a resolution answers by the kind of its mode, what
reading and writing an operand answers by the operand's kind (R136, R137), the round trip (R141), and that no step requests
an operand that its position forbids (R139). -/

namespace Sys2Proof.Machine

/-! ### How a step faults -/

/-- The fetch of an instruction ends without one in two ways: a word without an entry, or a refused fetch (40 R101, R103). -/
theorem fetchInstr_error {s : State} {f : Fault} (h : fetchInstr s = .error f) :
    (∃ w, f = .unimplementedOpcode w) ∨ ∃ a, f = .addressingFault a 2 .fetch := by
  simp only [fetchInstr, bind, Except.bind, pure, Except.pure] at h
  split at h
  · next e hopcode => cases h; exact .inr ⟨_, fetch16_error hopcode⟩
  · next p _ =>
    split at h
    · cases h; exact .inl ⟨_, rfl⟩
    · split at h
      · next e hwords => cases h; exact .inr (fetchWords_error hwords)
      · cases h

/-- The two faults of a step: its opcode word has no entry, or the port refuses an operation (60 R211, R213). -/
theorem step_fault {s : State} {f : Fault} (h : step s = .fault f) :
    (∃ w, f = .unimplementedOpcode w) ∨ ∃ a n k, f = .addressingFault a n k := by
  cases hh : s.halted with
  | true => simp [step, hh] at h
  | false =>
    cases hfetch : fetchInstr s.beginStep with
    | error g =>
      rw [step_of_fetchInstr_error hh hfetch] at h
      cases h
      exact (fetchInstr_error hfetch).imp_right fun ⟨a, ha⟩ => ⟨a, 2, .fetch, ha⟩
    | ok p =>
      rw [step_of_fetchInstr_ok hh hfetch] at h
      obtain ⟨ws, hdecode, -, -⟩ := fetchInstr_ok hfetch
      exact .inr (exec_fault (decodeWords_wf hdecode) h)

/-- Settles O12: what decodes is well formed, so a step faults only at its dispatch or at the port. -/
theorem stepNeverRequestsIllegalOperand : Obligations.StepNeverRequestsIllegalOperand := by
  intro s mode reg access h
  rcases step_fault h with ⟨w, hw⟩ | ⟨a, n, k, hport⟩
  · cases hw
  · cases hport

/-! ### Resolving -/

section
variable {ea : Ea} {sz : Size} {s t : State}

/-- A mode that names memory resolves to its address, with its cost and its side effect (R120, R138). -/
theorem resolve_of_address {a : Addr} (ha : eaAddress ea sz s = some a) :
    resolve ea sz s = .ok (⟨ea.mode, ea.reg, .mem a, s.eaCycles ea sz⟩, eaUpdate ea sz s) := by
  simp [resolve, eaKind_mem ha]

/-- The side effect of a resolution writes the address-register slots and nothing else (R124, R125). -/
theorem eaUpdate_eq : eaUpdate ea sz s =
    { s with a := (eaUpdate ea sz s).a, usp := (eaUpdate ea sz s).usp, ssp := (eaUpdate ea sz s).ssp } := by
  rcases eaUpdate_cases ea sz s with ⟨-, e⟩ | ⟨r, v, -, e⟩
  · rw [e]
  · rw [e]; exact setA_eq s r _

end

/-- The taint of a long smeared over its four bytes (R135). -/
theorem smear_tainted_four (v : TV 4) : TV.smear v.tainted 4 = if v.t = 0 then 0 else 15 := by
  cases h : v.tainted with
  | false => rw [if_pos (TV.tainted_eq_false.1 h)]; rfl
  | true => rw [if_neg fun ht => by rw [TV.tainted_eq_false.2 ht] at h; cases h]; rfl

/-- Settles O34: the address is taken from the register as it was, and the side effect is one write to that register. -/
theorem autoStepResolution : Obligations.AutoStepResolution := by
  intro r sz s
  refine ⟨⟨_, _, resolve_of_address rfl, rfl, rfl, ?_, eaUpdate_addressFrame (.postInc r) sz s, eaUpdate_eq⟩,
    ⟨_, _, resolve_of_address rfl, rfl, rfl, ?_, eaUpdate_addressFrame (.preDec r) sz s, eaUpdate_eq⟩⟩
  · rw [(eaUpdate_stepped (.postInc r) sz s r).1 rfl, smear_tainted_four]
  · rw [(eaUpdate_stepped (.preDec r) sz s r).2 rfl, smear_tainted_four]

/-- Settles O33, size by size. -/
theorem autoStepSize : Obligations.AutoStepSize := by
  refine ⟨fun r => ?_, fun r => ?_, fun r => ?_⟩
  · simp [stepSize, Config.spIndex]
  · simp [stepSize]
  · simp [stepSize]

/-- Settles O35: the low word of the index register is its bits 15:0. -/
theorem indexValue : Obligations.IndexValue := fun _ _ => rfl

/-- The base of a PC-relative mode, once the two words of its instruction are fetched (R130, R131, log 9). -/
theorem pcBase_afterFetch_two (s : State) : pcBase (afterFetch s 2) = s.pc + 2 := by
  simp only [pcBase, afterFetch]
  bv_omega

/-! ### Reading and writing an operand -/

section
variable {n : Nat} {m q : RegNo} {x : Nat} {s : State}

theorem read_dReg (r : RegNo) : (⟨m, q, .dReg r, x⟩ : Operand n).read s = .ok (s.readD r n, s) := rfl

theorem read_aReg (r : RegNo) (hn : n ≠ 1) :
    (⟨m, q, .aReg r, x⟩ : Operand n).read s = .ok ((s.getA r).low n, s) := if_neg hn

theorem write_mem (a : Addr) (v : TV n) (h : isPcRelative m q = false) :
    (⟨m, q, .mem a, x⟩ : Operand n).write v s = s.memWrite a v := by
  simp [Operand.write, h]

/-- A PC-relative operand refuses the write (R137). -/
theorem write_pcRelative (a : Addr) (v : TV n) (h : isPcRelative m q = true) :
    (⟨m, q, .mem a, x⟩ : Operand n).write v s = .error (.illegalOperandRequest m q (some .write)) := if_pos h

/-- What an accepted write stores, a read at the same address gives (20 R54). -/
theorem memWrite_memRead (hm : s.mem.wf) {a : Addr} (v : TV n) (hn : n ≤ 2 ^ 32) (hacc : s.mem.accepts a n = true) :
    ∃ u w, s.memWrite a v = .ok u ∧ u.memRead .read a n = .ok (v, w) := by
  have hload : (s.mem.storeBytes a v n).loadBytes a n = v := loadBytes_storeBytes hm v (accepts_allMapped hacc) hn
  refine ⟨_, _, memWrite_of_accepts hacc, (memRead_of_accepts .read ?_).trans (by rw [hload])⟩
  rw [accepts_congr (storeBytes_map s.mem a v n)]
  exact hacc

end

/-- A long read is the whole slot (10 R24). -/
theorem low_four (v : TV 4) : v.low 4 = v := by simp [TV.low]

/-- Settles O36: mode by mode, then kind by kind. -/
theorem plainModesResolution : Obligations.PlainModesResolution := by
  intro sz s
  have hbase := pcBase_afterFetch_two s
  refine ⟨fun _ => rfl, fun _ => rfl, fun _ => rfl, fun _ _ => rfl, fun _ _ => rfl, fun _ => rfl, fun _ => rfl,
    fun d => ?_, fun y => ?_, fun _ => rfl, fun _ _ _ _ => rfl, fun m q r x => ⟨rfl, ?_⟩, fun _ _ _ _ => rfl,
    fun _ _ _ _ => rfl, fun _ _ _ _ _ => rfl, fun _ _ a _ v h => write_mem a v h⟩
  · rw [← hbase]; rfl
  · rw [← hbase]; rfl
  · rw [read_aReg r (by decide), low_four]

/-- Settles O37: an operand refuses by its kind, and one in memory by the EA field it came from. -/
theorem illegalOperandRequests : Obligations.IllegalOperandRequests := by
  refine fun sz s v => ⟨fun r => rfl, fun o r hk => ?_, fun ea o t h hea => ?_⟩
  · simp [Operand.read, hk]
  · rcases hea with ⟨r, rfl⟩ | ⟨w, rfl⟩ | ⟨d, rfl⟩ | ⟨y, rfl⟩
    · cases h; rfl
    · cases h; rfl
    · cases h; exact write_pcRelative _ v rfl
    · cases h; exact write_pcRelative _ v rfl

/-- Settles O38: a data register is read at the width it was written at; a memory operand is one address, which the port
reads as it was written. -/
theorem resolvedOperandRoundTrip : Obligations.ResolvedOperandRoundTrip := by
  intro sz ea s v hm hea hacc
  rcases hea with hdst | ⟨r, rfl⟩
  · obtain ⟨⟨a, ha⟩, hpc⟩ := isDest_address (sz := sz) (s := s) hdst
    have hacc' : s.mem.accepts a sz.bytes = true := by simpa [operandAccepted, ha] using hacc
    have hmem : (eaUpdate ea sz s).mem = s.mem := eaUpdate_mem ea sz s
    obtain ⟨u, w, hwrite, hread⟩ := memWrite_memRead (hmem ▸ hm) v (bytes_le_space sz) (hmem ▸ hacc')
    exact ⟨_, _, u, w, resolve_of_address ha, (write_mem a v hpc).trans hwrite, hread⟩
  · refine ⟨_, _, s.writeD r v, s.writeD r v, rfl, rfl, ?_⟩
    rw [read_dReg, readD_writeD_self s r v (bytes_le_four sz)]

/-! ### Cycle tables -/

/-- Settles O39: the default table has one row for all the registers of a mode below 111, and one per register there. -/
theorem extraCyclesDefaultTable : Obligations.ExtraCyclesDefaultTable := by
  refine ⟨fun _ _ _ => rfl, rfl, fun s hs => ⟨?_, ?_, fun r d y a => ?_⟩⟩
  · rw [hs]; rfl
  · rw [hs]; rfl
  · simp [State.eaCycles, hs, CycleTables.eaCost, defaultCycles, defaultMode7, rowCost, SizeCost.forSize, Ea.mode, Ea.reg,
      Vector.get_eq_getElem]

end Sys2Proof.Machine
end

section
/-! SUPPORT. The ALU and the flag computation unit (42_alu_and_flags.md): the values and the taint of the kinds (R151 to
R159), carry and overflow as facts of unsigned and of signed arithmetic (R162, R163), the flags by kind (R161 to R168), and
the flag-byte write path (R169). -/

namespace Sys2Proof.Machine

/-! ### The ALU -/

section
variable {n : Nat}

/-- A combination does not depend on the order of its operands, under either value of `TAINT_COMBINE` (R159). -/
theorem combineTaintUnder_comm (p : TaintCombine) (x y : TV n) : combineTaintUnder p x y = combineTaintUnder p y x := by
  cases p with
  | smear => exact congrArg (TV.smear · n) (Bool.or_comm _ _)
  | lanewise => exact BitVec.or_comm _ _

theorem alu_or_comm (x y : TV n) : alu .or x y = alu .or y x :=
  TV.ext_parts (BitVec.or_comm _ _) (combineTaintUnder_comm taintCombine x y)

/-- A combination is tainted exactly if an operand is (R159, R168 (c)). -/
theorem tainted_combineTaint (hn : 0 < n) (v : BitVec (8 * n)) (x y : TV n) :
    (⟨v, combineTaint x y⟩ : TV n).tainted = (x.tainted || y.tainted) := by
  obtain ⟨m, rfl⟩ := Nat.exists_eq_add_one_of_ne_zero hn.ne'
  exact TV.tainted_smear _ v

/-- Every kind but MOVE combines its operands (R159). -/
theorem alu_t_of_ne_move {k : AluKind} (hk : k ≠ .move) (x y : TV n) : (alu k x y).t = combineTaint x y := by
  cases k with
  | move => exact absurd rfl hk
  | _ => rfl

theorem alu_tainted_of_ne_move (hn : 0 < n) {k : AluKind} (hk : k ≠ .move) (x y : TV n) :
    (alu k x y).tainted = (x.tainted || y.tainted) := by
  rw [← tainted_combineTaint hn (alu k x y).val, ← alu_t_of_ne_move hk]

end

theorem bytes_pos (sz : Size) : 0 < sz.bytes := by cases sz <;> decide

/-- Settles O26: the values are those of the library's bit vectors. -/
theorem aluValuesPerKind : Obligations.AluValuesPerKind := by
  refine fun sz x y => ⟨rfl, alu_or_comm x y, rfl, rfl, rfl, BitVec.toNat_add _ _, ?_, rfl⟩
  rw [Nat.add_comm]
  exact BitVec.toNat_sub _ _

/-! ### Carry and overflow of the sign bits -/

section
variable {w n : Nat}

/-- The carry out of an addition, from the sign bits of its operands and of its result. -/
theorem uaddOverflow_eq_msb (x y : BitVec w) :
    x.uaddOverflow y = (y.msb && x.msb || !(x + y).msb && x.msb || y.msb && !(x + y).msb) := by
  cases w with
  | zero => rw [BitVec.eq_nil x, BitVec.eq_nil y]; rfl
  | succ k =>
    have hx := x.isLt
    have hy := y.isLt
    have hsum : (x + y).toNat = x.toNat + y.toNat ∧ x.toNat + y.toNat < 2 ^ (k + 1) ∨
        (x + y).toNat + 2 ^ (k + 1) = x.toNat + y.toNat := by
      rw [BitVec.toNat_add]
      rcases Nat.lt_or_ge (x.toNat + y.toNat) (2 ^ (k + 1)) with hlt | hge
      · exact .inl ⟨Nat.mod_eq_of_lt hlt, hlt⟩
      · rw [Nat.mod_eq_sub_mod hge, Nat.mod_eq_of_lt (by omega)]
        omega
    rw [Bool.eq_iff_iff]
    simp only [BitVec.uaddOverflow, BitVec.msb_eq_decide, Nat.add_sub_cancel, Bool.or_eq_true, Bool.and_eq_true,
      Bool.not_eq_true', decide_eq_true_eq, decide_eq_false_iff_not]
    omega

/-- The borrow of a subtraction is the carry out of adding the subtrahend back to the difference. -/
theorem usubOverflow_eq_uaddOverflow (x y : BitVec w) : x.usubOverflow y = (x - y).uaddOverflow y := by
  have hx := x.isLt
  have hy := y.isLt
  rw [BitVec.usubOverflow, BitVec.uaddOverflow, decide_eq_decide]
  rcases Nat.lt_or_ge x.toNat y.toNat with hlt | hge
  · have := BitVec.toNat_sub_of_lt (BitVec.lt_def.2 hlt)
    omega
  · have := BitVec.toNat_sub_of_le (BitVec.le_def.2 hge)
    omega

/-- The signed overflow of an addition: the result is not the sum of the signed interpretations. -/
theorem saddOverflow_eq_toInt_ne (x y : BitVec w) : x.saddOverflow y = decide (x.toInt + y.toInt ≠ (x + y).toInt) := by
  cases h : x.saddOverflow y with
  | false => simp [BitVec.toInt_add_of_not_saddOverflow (ne_true_of_eq_false h)]
  | true =>
    have hlt := BitVec.toInt_lt (x := x + y)
    have hge := BitVec.le_toInt (x + y)
    simp only [BitVec.saddOverflow, Bool.or_eq_true, decide_eq_true_eq] at h
    rw [eq_comm, decide_eq_true_eq]
    omega

/-- The signed overflow of a subtraction: the result is not the difference of the signed interpretations. -/
theorem ssubOverflow_eq_toInt_ne (x y : BitVec w) : x.ssubOverflow y = decide (x.toInt - y.toInt ≠ (x - y).toInt) := by
  cases h : x.ssubOverflow y with
  | false => simp [BitVec.toInt_sub_of_not_ssubOverflow (ne_true_of_eq_false h)]
  | true =>
    have hlt := BitVec.toInt_lt (x := x - y)
    have hge := BitVec.le_toInt (x - y)
    simp only [BitVec.ssubOverflow, Bool.or_eq_true, decide_eq_true_eq] at h
    rw [eq_comm, decide_eq_true_eq]
    omega

/-- The sign bit is the library's (R166). -/
theorem msb_eq_val_msb (v : TV n) : v.msb = v.val.msb := (BitVec.msb_eq_getLsbD_last _).symm

/-- Kind ADD's C is the carry out of the unsigned sum (R162). -/
theorem addCarry_eq (x y : TV n) :
    addCarry x.msb y.msb (alu .add x y).msb = decide (2 ^ (8 * n) ≤ y.val.toNat + x.val.toNat) := by
  simp only [msb_eq_val_msb]
  exact (uaddOverflow_eq_msb y.val x.val).symm

/-- Kind ADD's V is signed overflow (R162). -/
theorem addOverflow_eq (x y : TV n) :
    addOverflow x.msb y.msb (alu .add x y).msb = decide (y.val.toInt + x.val.toInt ≠ (alu .add x y).val.toInt) := by
  have hbool : ∀ sm dm rm, addOverflow sm dm rm = (dm == sm && !(rm == dm)) := by decide
  simp only [msb_eq_val_msb, hbool]
  exact (BitVec.saddOverflow_eq y.val x.val).symm.trans (saddOverflow_eq_toInt_ne _ _)

/-- Kind SUB's C is the borrow of the unsigned difference (R163). -/
theorem subCarry_eq (x y : TV n) :
    subCarry x.msb y.msb (alu .sub x y).msb = decide (y.val.toNat < x.val.toNat) := by
  have hbool : ∀ sm dm rm, subCarry sm dm rm = (sm && rm || !dm && rm || sm && !dm) := by decide
  have hborrow := (usubOverflow_eq_uaddOverflow y.val x.val).trans (uaddOverflow_eq_msb _ _)
  rw [BitVec.sub_add_cancel] at hborrow
  simp only [msb_eq_val_msb, hbool]
  exact hborrow.symm

/-- Kind SUB's V is signed overflow (R163). -/
theorem subOverflow_eq (x y : TV n) :
    subOverflow x.msb y.msb (alu .sub x y).msb = decide (y.val.toInt - x.val.toInt ≠ (alu .sub x y).val.toInt) := by
  have hbool : ∀ sm dm rm, subOverflow sm dm rm = (!dm && sm && rm || dm && !sm && !rm) := by decide
  simp only [msb_eq_val_msb, hbool]
  exact (BitVec.ssubOverflow_eq y.val x.val).symm.trans (ssubOverflow_eq_toInt_ne _ _)

end

/-! ### The flags by kind -/

section
variable {n : Nat}

/-- The kinds OR, AND and EOR: the logical flags with the taint of both operands (R161, R165). -/
theorem computeFlags_logical {k : AluKind} (hk : k ∈ [AluKind.or, .and, .eor]) (x y res : TV n) :
    computeFlags k x y res = logicalFlags (x.tainted || y.tainted) res := by
  cases k with
  | or | and | eor => rfl
  | _ => exact absurd hk (by decide)

/-- What an update by kind ADD or SUB writes: X as C, Z and N of the result, one taint for all five (R162, R163, R165). -/
theorem applyFlags_arithmetic (s : State) (c v tc : Bool) (res : TV n) :
    let t := s.applyFlags ⟨⟨c, tc⟩, ⟨v, tc⟩, zeroFlag res tc, negFlag res tc, some ⟨c, tc⟩⟩
    t.flagC = c ∧ t.flagV = v ∧ t.flagX = t.flagC ∧ t.flagZ = decide (res.val = 0) ∧ t.flagN = res.msb ∧
    (∀ i, i < 5 → t.ft.getLsbD i = tc) ∧ t.sr.extractLsb' 5 11 = s.sr.extractLsb' 5 11 := by
  obtain ⟨hc, hv, hz, hn, hx, tC, tV, tZ, tN, tX, hsr⟩ :=
    applyFlags_spec s ⟨⟨c, tc⟩, ⟨v, tc⟩, zeroFlag res tc, negFlag res tc, some ⟨c, tc⟩⟩
  refine ⟨hc, hv, hx.trans hc.symm, hz.trans (beq_eq_decide _ _), hn, fun i hi => ?_, hsr⟩
  match i, hi with
  | 0, _ => exact tC
  | 1, _ => exact tV
  | 2, _ => exact tZ
  | 3, _ => exact tN
  | 4, _ => exact tX

/-- Kind CMP is kind SUB with X left alone (R164). -/
theorem computeFlags_cmp (x y : TV n) :
    computeFlags .cmp x y (alu .cmp x y) = { computeFlags .sub x y (alu .sub x y) with x := none } := rfl

end

/-- Settles O28: both clauses are the law of a logical update. -/
theorem logicalKindsFlags : Obligations.LogicalKindsFlags := by
  refine fun sz x y res s => ⟨fun k hk => ?_, applyFlags_logical s x.tainted res⟩
  rw [computeFlags_logical hk]
  exact applyFlags_logical s _ res

/-- Settles O27: C and V are those of a logical update, MOVE's among them. -/
theorem flagUnitLaws : Obligations.FlagUnitLaws := by
  refine fun sz x y => ⟨⟨alu_or_comm x y, ?_⟩, fun k hk res s => ?_, fun k hk => ?_⟩
  · rw [computeFlags_logical (by decide), computeFlags_logical (by decide), alu_or_comm, Bool.or_comm]
  · obtain ⟨tc, hflags⟩ : ∃ tc, LogicalFlagsAfter s (s.applyFlags (computeFlags k x y res)) res.val tc := by
      obtain ⟨hcombining, hmove⟩ := logicalKindsFlags sz x y res s
      rcases List.mem_append.1 (show k ∈ [AluKind.or, .and, .eor] ++ [.move] from hk) with hk | hk
      · exact ⟨_, hcombining k hk⟩
      · rw [List.mem_singleton.1 hk]
        exact ⟨_, hmove⟩
    obtain ⟨hc, hv, -, -, -, htc, htv, -⟩ := hflags
    exact ⟨hc, hv, htc, htv⟩
  · refine alu_tainted_of_ne_move (bytes_pos sz) ?_ x y
    rintro rfl
    exact absurd hk (by decide)

/-- Settles O29: the sign-bit formulas are the unit's own, and say carry out and signed overflow. -/
theorem addFlags : Obligations.AddFlags := by
  intro sz x y s
  obtain ⟨hc, hv, hrest⟩ := applyFlags_arithmetic s (addCarry x.msb y.msb (alu .add x y).msb)
    (addOverflow x.msb y.msb (alu .add x y).msb) (x.tainted || y.tainted) (alu .add x y)
  exact ⟨hc, hv, hc.trans (addCarry_eq x y), hv.trans (addOverflow_eq x y), hrest⟩

/-- Settles O30: the sign-bit formulas are the unit's own, and say borrow and signed overflow. -/
theorem subFlags : Obligations.SubFlags := by
  intro sz x y s
  obtain ⟨hc, hv, hrest⟩ := applyFlags_arithmetic s (subCarry x.msb y.msb (alu .sub x y).msb)
    (subOverflow x.msb y.msb (alu .sub x y).msb) (x.tainted || y.tainted) (alu .sub x y)
  exact ⟨hc, hv, hc.trans (subCarry_eq x y), hv.trans (subOverflow_eq x y), hrest⟩

/-- Settles O31: the two updates differ in X alone. -/
theorem cmpFlagsAsSubButExtend : Obligations.CmpFlagsAsSubButExtend := by
  intro sz x y s
  rw [computeFlags_cmp]
  obtain ⟨hc, hv, hz, hn, hx, tC, tV, tZ, tN, tX, -⟩ :=
    applyFlags_spec s { computeFlags .sub x y (alu .sub x y) with x := none }
  obtain ⟨hc', hv', hz', hn', -, tC', tV', tZ', tN', -⟩ := applyFlags_spec s (computeFlags .sub x y (alu .sub x y))
  refine ⟨hc.trans hc'.symm, hv.trans hv'.symm, hz.trans hz'.symm, hn.trans hn'.symm, fun i hi => ?_, hx, tX⟩
  match i, hi with
  | 0, _ => exact tC.trans tC'.symm
  | 1, _ => exact tV.trans tV'.symm
  | 2, _ => exact tZ.trans tZ'.symm
  | 3, _ => exact tN.trans tN'.symm

/-! ### The flag-byte write path -/

/-- A flag that OR forces to 1 becomes untainted (R169, log 8). -/
theorem CcrOp.or_taint_bit (old imm : BitVec 5) {i : Nat} (hi : i < 5) :
    (CcrOp.or.taint old imm).getLsbD i = if imm.getLsbD i then false else old.getLsbD i := by
  have hmask : (CcrOp.or.taint old imm).getLsbD i = (old.getLsbD i && !imm.getLsbD i) := by
    simp only [CcrOp.taint, ccrImmTaint, CcrOp.taintUnder, BitVec.getLsbD_and, BitVec.getLsbD_not, hi, decide_true,
      Bool.true_and]
  rw [hmask]
  cases imm.getLsbD i <;> simp

/-- A flag that AND forces to 0 becomes untainted (R169, log 8). -/
theorem CcrOp.and_taint_bit (old imm : BitVec 5) (i : Nat) :
    (CcrOp.and.taint old imm).getLsbD i = if imm.getLsbD i then old.getLsbD i else false := by
  cases himm : imm.getLsbD i <;> simp [CcrOp.taint, ccrImmTaint, CcrOp.taintUnder, himm]

/-- Settles O32: operator by operator at each flag position; the rest of `SR` is the law of the write path. -/
theorem flagByteWritePath : Obligations.FlagByteWritePath := by
  intro s op imm
  obtain ⟨hflags, hreserved, hhigh⟩ := flagByteWrite_sr s op imm
  refine ⟨fun i hi => ?_, fun i hi => ?_, hreserved, hhigh, rfl⟩
  · rw [hflags i hi, ← flags_bit s hi]
    cases op with
    | or => exact BitVec.getLsbD_or
    | and => exact BitVec.getLsbD_and
    | eor => exact BitVec.getLsbD_xor
  · cases op with
    | or => exact CcrOp.or_taint_bit s.ft imm hi
    | and => exact CcrOp.and_taint_bit s.ft imm i
    | eor => rfl

end Sys2Proof.Machine
end

section
/-! SUPPORT. The logical-OR family (43_or.md R180 to R186): each of its two shapes completes, faults or keeps the rest of the
state in the same way at every size, so each obligation is a rule of the shape taken at its sizes. -/

namespace Sys2Proof.Machine

/-! ### The two shapes at any size -/

section
variable {sz : Size} {ea : Ea} {s t : State}

/-- A register-dest OR completes on every accepted source (R181 to R183). -/
theorem exec_mkOrToReg_completes (dn : RegNo) (hsrc : ea.isSource = true) (hacc : operandAccepted ea sz s = true) :
    ∃ t, exec (mkOrToReg sz ea dn) s = .next t ∧ OrToRegAfter sz (orBaseToReg sz) ea dn s t := by
  refine ⟨orToRegResult sz ea dn s, ?_, orToRegResult_spec sz ea dn s⟩
  rw [exec_mkOrToReg, deliver_next]
  exact orToReg_of_accepted hsrc hacc

/-- An EA-dest OR completes on every accepted destination (R184 to R186). -/
theorem exec_mkOrToEa_completes (dn : RegNo) (hdst : ea.isDest = true) (hm : s.mem.wf)
    (hacc : operandAccepted ea sz s = true) :
    ∃ t, exec (mkOrToEa sz dn ea) s = .next t ∧ OrToEaAfter sz (orBaseToEa sz) dn ea s t := by
  obtain ⟨⟨a, ha⟩, -⟩ := isDest_address (sz := sz) (s := s) hdst
  have hport : s.mem.accepts a sz.bytes = true := by simpa [operandAccepted, ha] using hacc
  refine ⟨orToEaResult sz dn ea a s, ?_, orToEaResult_spec hm ha hport⟩
  rw [exec_mkOrToEa, deliver_next]
  exact orToEa_of_accepted hdst ha hport

/-- Both shapes end with the fault of the operand read that the port refuses (R180, 60 R213). -/
theorem exec_or_of_refused (dn : RegNo) {a : Addr} (ha : eaAddress ea sz s = some a)
    (hacc : s.mem.accepts a sz.bytes = false) :
    exec (mkOrToReg sz ea dn) s = .fault (.addressingFault a sz.bytes .read) ∧
    exec (mkOrToEa sz dn ea) s = .fault (.addressingFault a sz.bytes .read) := by
  rw [exec_mkOrToReg, exec_mkOrToEa, deliver_fault, deliver_fault]
  exact or_of_refused ha hacc

theorem eq_orToRegResult_of_exec {dn : RegNo} (h : exec (mkOrToReg sz ea dn) s = .next t) :
    t = orToRegResult sz ea dn s := by
  rw [exec_mkOrToReg, deliver_next] at h
  exact (orToReg_ok h).1

theorem eq_orToEaResult_of_exec {dn : RegNo} {a : Addr} (hdst : ea.isDest = true) (ha : eaAddress ea sz s = some a)
    (h : exec (mkOrToEa sz dn ea) s = .next t) : t = orToEaResult sz dn ea a s := by
  rw [exec_mkOrToEa, deliver_next] at h
  exact (orToEa_ok hdst ha h).1

end

/-! ### Completion -/

/-- Settles O40: the register-dest shape at byte size. -/
theorem orByteToRegister : Obligations.OrByteToRegister := fun _ dn _ => exec_mkOrToReg_completes (sz := .byte) dn

/-- Settles O41: the register-dest shape at word size. -/
theorem orWordToRegister : Obligations.OrWordToRegister := fun _ dn _ => exec_mkOrToReg_completes (sz := .word) dn

/-- Settles O42: the register-dest shape at long size. -/
theorem orLongToRegister : Obligations.OrLongToRegister := fun _ dn _ => exec_mkOrToReg_completes (sz := .long) dn

/-- Settles O43: the EA-dest shape at byte size. -/
theorem orByteToMemory : Obligations.OrByteToMemory := fun dn _ _ => exec_mkOrToEa_completes (sz := .byte) dn

/-- Settles O44: the EA-dest shape at word size. -/
theorem orWordToMemory : Obligations.OrWordToMemory := fun dn _ _ => exec_mkOrToEa_completes (sz := .word) dn

/-- Settles O45: the EA-dest shape at long size. -/
theorem orLongToMemory : Obligations.OrLongToMemory := fun dn _ _ => exec_mkOrToEa_completes (sz := .long) dn

/-! ### The fault -/

/-- Settles O46: both shapes read the operand first, at each of the three sizes. -/
theorem orRefusedOperandFaults : Obligations.OrRefusedOperandFaults := fun _ dn _ _ =>
  ⟨exec_or_of_refused (sz := .byte) dn, exec_or_of_refused (sz := .word) dn, exec_or_of_refused (sz := .long) dn⟩

/-! ### Frames -/

/-- Settles O47: the result of the shape leaves the registers and the memory, and its logical flags leave X and
`SR[15:5]`. -/
theorem orToRegisterFrame : Obligations.OrToRegisterFrame := by
  intro src dn s t h
  obtain ⟨sz, rfl⟩ : ∃ sz, t = orToRegResult sz src dn s := by
    rcases h with h | h | h
    · exact ⟨.byte, eq_orToRegResult_of_exec (sz := .byte) h⟩
    · exact ⟨.word, eq_orToRegResult_of_exec (sz := .word) h⟩
    · exact ⟨.long, eq_orToRegResult_of_exec (sz := .long) h⟩
  obtain ⟨hd, haddr, hpc, hhalted, hmem, hcosts⟩ := orToRegResult_frame sz src dn s
  obtain ⟨-, -, -, -, ⟨-, -, -, -, hx, -, -, -, -, hxt, hsr⟩, -⟩ := orToRegResult_spec sz src dn s
  exact ⟨hd, haddr, hpc, hsr, hx, hxt, hhalted, hcosts, hmem⟩

/-- Settles O48: the address stored to is the one resolved, and the result of the shape leaves all but the bytes there. -/
theorem orToMemoryFrame : Obligations.OrToMemoryFrame := by
  intro dn dst s t sz hdst h
  obtain ⟨⟨a, ha⟩, -⟩ := isDest_address (sz := sz) (s := s) hdst
  have hexec : exec (mkOrToEa sz dn dst) s = .next t := by
    rcases h with ⟨rfl, h⟩ | ⟨rfl, h⟩ | ⟨rfl, h⟩ <;> exact h
  obtain rfl := eq_orToEaResult_of_exec hdst ha hexec
  obtain ⟨hd, haddr, hpc, hhalted, hcosts, hmap, hsr, hx, hxt, hcell⟩ := orToEaResult_frame sz dst dn a s
  refine ⟨hd, haddr, hpc, hsr, hx, hxt, hhalted, hcosts, hmap, fun b hb => ?_⟩
  obtain rfl : a = b := Option.some.inj (ha.symm.trans hb)
  exact hcell

end Sys2Proof.Machine
end

section
/-! SUPPORT. The byte-lane transfer family (44_movep.md R190 to R195): each direction completes, faults or keeps the rest of
the state in the same way at word and at long size, so each obligation is a rule of the direction taken at its sizes. -/

namespace Sys2Proof.Machine

/-! ### Lanes -/

/-- A lane is eight bits of the value and one bit of the mask. -/
theorem lane_eq_extractLsb' {n : Nat} (v : TV n) (i : Nat) :
    v.lane i = ⟨v.val.extractLsb' (8 * i) 8, v.t.extractLsb' i 1⟩ :=
  TV.ext_parts (BitVec.eq_of_toNat_eq (by simp [TV.lane])) (BitVec.eq_of_toNat_eq (by simp [TV.lane]))

/-- The low four bytes of a data register are the whole slot (10 R24). -/
theorem readD_four (s : State) (r : RegNo) : s.readD r 4 = s.d.get r := low_four _

theorem lanesAccepted_two_iff {m : Memory} {a : Addr} :
    lanesAccepted m a 2 = true ↔ m.accepts a 1 = true ∧ m.accepts (a + 2) 1 = true := by
  simp [lanesAccepted]

theorem lanesAccepted_four_iff {m : Memory} {a : Addr} :
    lanesAccepted m a 4 = true ↔ m.accepts a 1 = true ∧ m.accepts (a + 2) 1 = true ∧ m.accepts (a + 4) 1 = true ∧
      m.accepts (a + 6) 1 = true := by
  simp [lanesAccepted, BitVec.add_assoc]

/-- Lanes read from where they were stored are the value stored (R195 (a)). -/
theorem laneValue_storeLanes {n : Nat} {m : Memory} (hm : m.wf) {a : Addr} (v : TV n) (ha : lanesAccepted m a n = true)
    (hn : n ≤ 2 ^ 31) : laneValue (storeLanes m a v n) a n = v := by
  apply TV.ext_lanes
  intro k hk
  rw [lane_laneValue _ _ hk, cell_storeLanes_inside hm v ha hn (by omega)]
  congr 1
  omega

/-! ### The two directions at any size -/

/-- What a completed memory-to-register transfer makes of the state. -/
def movepToRegResult (l : Bool) (d16 : BitVec 16) (ay dx : RegNo) (s : State) : State :=
  ((logLanes s .read (movepBase s ay d16) (movepBytes l)).writeD dx
    (laneValue s.mem (movepBase s ay d16) (movepBytes l))).setCycles (movepCycles s l)

/-- What a completed register-to-memory transfer makes of the state. -/
def movepToMemResult (l : Bool) (dx : RegNo) (d16 : BitVec 16) (ay : RegNo) (s : State) : State :=
  { logLanes s .write (movepBase s ay d16) (movepBytes l) with
    mem := storeLanes s.mem (movepBase s ay d16) (s.readD dx (movepBytes l)) (movepBytes l) }.setCycles (movepCycles s l)

section
variable {l : Bool} {d16 : BitVec 16} {ay dx : RegNo} {s t : State}

/-- A memory-to-register transfer completes exactly when the port accepts all of its lanes (R190). -/
theorem exec_mkMovepToReg_next : exec (mkMovepToReg l d16 ay dx) s = .next t ↔
    lanesAccepted s.mem (movepBase s ay d16) (movepBytes l) = true ∧ t = movepToRegResult l d16 ay dx s := by
  rw [exec_mkMovepToReg, deliver_next]
  constructor
  · exact movepToReg_ok
  · rintro ⟨h, rfl⟩
    exact movepToReg_of_accepted h

/-- A register-to-memory transfer completes exactly when the port accepts all of its lanes (R190). -/
theorem exec_mkMovepToMem_next : exec (mkMovepToMem l dx d16 ay) s = .next t ↔
    lanesAccepted s.mem (movepBase s ay d16) (movepBytes l) = true ∧ t = movepToMemResult l dx d16 ay s := by
  rw [exec_mkMovepToMem, deliver_next]
  constructor
  · exact movepToMem_ok
  · rintro ⟨h, rfl⟩
    exact movepToMem_of_accepted h

/-- The register's low bytes are the lanes read (R190). -/
theorem readD_movepToRegResult : (movepToRegResult l d16 ay dx s).readD dx (movepBytes l) =
    laneValue s.mem (movepBase s ay d16) (movepBytes l) := by
  have hk : movepBytes l ≤ 4 := by cases l <;> decide
  rw [movepToRegResult, setCycles_readD, readD_writeD_self _ _ _ hk]

/-- A memory-to-register transfer puts the byte at `base + 2i` into lane `i` from the top of those it moves, and keeps the
bytes above them and the flags (R190 to R192). -/
theorem exec_mkMovepToReg_completes (dx : RegNo)
    (hacc : lanesAccepted s.mem (movepBase s ay d16) (movepBytes l) = true) :
    ∃ t, exec (mkMovepToReg l d16 ay dx) s = .next t ∧
      (∀ i, i < movepBytes l → (t.readD dx (movepBytes l)).lane (movepBytes l - 1 - i) =
        s.mem.cell (movepBase s ay d16 + BitVec.ofNat 32 (2 * i))) ∧
      (t.d.get dx).val >>> (8 * movepBytes l) = (s.d.get dx).val >>> (8 * movepBytes l) ∧
      (t.d.get dx).t >>> movepBytes l = (s.d.get dx).t >>> movepBytes l ∧
      t.sr = s.sr ∧ t.ft = s.ft ∧ t.cycles = movepCycles s l := by
  refine ⟨_, exec_mkMovepToReg_next.2 ⟨hacc, rfl⟩, fun i hi => ?_, ?_, ?_, rfl, rfl, rfl⟩
  · have hfromTop : movepBytes l - 1 - (movepBytes l - 1 - i) = i := by omega
    rw [readD_movepToRegResult, lane_laneValue _ _ (by omega), hfromTop]
  · rw [movepToRegResult, setCycles_d, get_writeD, if_pos rfl]
    exact TV.setLow_val_above _ _
  · rw [movepToRegResult, setCycles_d, get_writeD, if_pos rfl]
    exact TV.setLow_t_above _ _

/-- A register-to-memory transfer stores lane `i` from the top of those it moves at `base + 2i`, with its taint bit, and
keeps the flags (R190, R193, R194). -/
theorem exec_mkMovepToMem_completes (dx : RegNo) (hm : s.mem.wf)
    (hacc : lanesAccepted s.mem (movepBase s ay d16) (movepBytes l) = true) :
    ∃ t, exec (mkMovepToMem l dx d16 ay) s = .next t ∧
      (∀ i, i < movepBytes l → t.mem.cell (movepBase s ay d16 + BitVec.ofNat 32 (2 * i)) =
        ⟨(s.d.get dx).val.extractLsb' (8 * (movepBytes l - 1 - i)) 8,
          (s.d.get dx).t.extractLsb' (movepBytes l - 1 - i) 1⟩) ∧
      t.sr = s.sr ∧ t.ft = s.ft ∧ t.cycles = movepCycles s l := by
  refine ⟨_, exec_mkMovepToMem_next.2 ⟨hacc, rfl⟩, fun i hi => ?_, rfl, rfl, rfl⟩
  rw [movepToMemResult, setCycles_mem, cell_storeLanes_inside hm _ hacc (movepBytes_le_space l) hi, State.readD,
    lane_low _ _ (by omega), lane_eq_extractLsb']

/-- Both directions end with the fault of the first lane that the port refuses (R190, 60 R213). -/
theorem exec_movep_of_refused {j : Nat} (hj : j < movepBytes l)
    (hok : lanesAccepted s.mem (movepBase s ay d16) j = true)
    (hbad : s.mem.accepts (movepBase s ay d16 + BitVec.ofNat 32 (2 * j)) 1 = false) :
    exec (mkMovepToReg l d16 ay dx) s =
      .fault (.addressingFault (movepBase s ay d16 + BitVec.ofNat 32 (2 * j)) 1 .read) ∧
    exec (mkMovepToMem l dx d16 ay) s =
      .fault (.addressingFault (movepBase s ay d16 + BitVec.ofNat 32 (2 * j)) 1 .write) := by
  obtain ⟨hread, hwrite⟩ := lanes_refused (s.readD dx (movepBytes l)) s _ hj hok hbad
  rw [exec_mkMovepToReg, exec_mkMovepToMem, deliver_fault, deliver_fault, movepToReg, movepToMem, hread, hwrite]
  exact ⟨rfl, rfl⟩

/-- The bytes a register-to-memory transfer stored load back into any data register (R195 (a)). -/
theorem exec_movep_round_trip (dy : RegNo) (hm : s.mem.wf) (h : exec (mkMovepToMem l dx d16 ay) s = .next t) :
    ∃ u, exec (mkMovepToReg l d16 ay dy) t = .next u ∧ u.readD dy (movepBytes l) = s.readD dx (movepBytes l) := by
  obtain ⟨hacc, rfl⟩ := exec_mkMovepToMem_next.1 h
  refine ⟨_, exec_mkMovepToReg_next.2 ⟨?_, rfl⟩, ?_⟩
  · exact (lanesAccepted_congr (storeLanes_map ..) _ _).trans hacc
  · rw [readD_movepToRegResult]
    exact laneValue_storeLanes hm _ hacc (movepBytes_le_space l)

end

/-! ### Completion -/

/-- Settles O49: the memory-to-register direction at two lanes. -/
theorem movepWordToRegister : Obligations.MovepWordToRegister := by
  intro d16 ay dx s base h0 h1
  obtain ⟨t, hexec, hlane, hval, ht, hrest⟩ :=
    exec_mkMovepToReg_completes (l := false) dx (lanesAccepted_two_iff.2 ⟨h0, h1⟩)
  have htop := (hlane 0 (by decide)).trans (congrArg s.mem.cell (BitVec.add_zero base))
  exact ⟨t, hexec, htop, hlane 1 (by decide), hval, ht, hrest⟩

/-- Settles O50: the memory-to-register direction at four lanes, which are the whole register. -/
theorem movepLongToRegister : Obligations.MovepLongToRegister := by
  intro d16 ay dx s base h0 h1 h2 h3
  obtain ⟨t, hexec, hlane, -, -, hrest⟩ :=
    exec_mkMovepToReg_completes (l := true) dx (lanesAccepted_four_iff.2 ⟨h0, h1, h2, h3⟩)
  have htop := (hlane 0 (by decide)).trans (congrArg s.mem.cell (BitVec.add_zero base))
  refine ⟨t, hexec, ?_⟩
  rw [← readD_four t dx]
  exact ⟨htop, hlane 1 (by decide), hlane 2 (by decide), hlane 3 (by decide), hrest⟩

/-- Settles O51: the register-to-memory direction at two lanes. -/
theorem movepWordToMemory : Obligations.MovepWordToMemory := by
  intro dx d16 ay s hm base h0 h1
  obtain ⟨t, hexec, hcell, hrest⟩ :=
    exec_mkMovepToMem_completes (l := false) dx hm (lanesAccepted_two_iff.2 ⟨h0, h1⟩)
  have htop := (congrArg t.mem.cell (BitVec.add_zero base)).symm.trans (hcell 0 (by decide))
  exact ⟨t, hexec, htop, hcell 1 (by decide), hrest⟩

/-- Settles O52: the register-to-memory direction at four lanes. -/
theorem movepLongToMemory : Obligations.MovepLongToMemory := by
  intro dx d16 ay s hm base h0 h1 h2 h3
  obtain ⟨t, hexec, hcell, hrest⟩ :=
    exec_mkMovepToMem_completes (l := true) dx hm (lanesAccepted_four_iff.2 ⟨h0, h1, h2, h3⟩)
  have htop := (congrArg t.mem.cell (BitVec.add_zero base)).symm.trans (hcell 0 (by decide))
  exact ⟨t, hexec, htop, hcell 1 (by decide), hcell 2 (by decide), hcell 3 (by decide), hrest⟩

/-! ### The fault -/

/-- Settles O53: the first refused lane, at each of the two sizes. -/
theorem movepRefusedLaneFaults : Obligations.MovepRefusedLaneFaults := fun _ _ _ _ _ hok hbad =>
  ⟨fun hj => exec_movep_of_refused (l := false) hj hok hbad, fun hj => exec_movep_of_refused (l := true) hj hok hbad⟩

/-! ### Frames -/

/-- Settles O54: the result of the direction writes one data register and the two output fields. -/
theorem movepToRegisterFrame : Obligations.MovepToRegisterFrame := by
  intro d16 ay dx s t h
  obtain ⟨l, rfl⟩ : ∃ l, t = movepToRegResult l d16 ay dx s := by
    rcases h with h | h
    · exact ⟨false, (exec_mkMovepToReg_next (l := false).1 h).2⟩
    · exact ⟨true, (exec_mkMovepToReg_next (l := true).1 h).2⟩
  refine ⟨fun r hr => ?_, rfl⟩
  rw [movepToRegResult, setCycles_d, get_writeD, if_neg hr]
  rfl

/-- Settles O55: the result of the direction writes the cells of its lanes and the two output fields. -/
theorem movepToMemoryFrame : Obligations.MovepToMemoryFrame := by
  intro dx d16 ay s t k h
  obtain ⟨l, rfl, rfl⟩ : ∃ l, k = movepBytes l ∧ t = movepToMemResult l dx d16 ay s := by
    rcases h with ⟨rfl, h⟩ | ⟨rfl, h⟩
    · exact ⟨false, rfl, (exec_mkMovepToMem_next (l := false).1 h).2⟩
    · exact ⟨true, rfl, (exec_mkMovepToMem_next (l := true).1 h).2⟩
  exact ⟨rfl, storeLanes_map .., fun b hb => cell_storeLanes_outside s.mem _ b _ _ hb⟩

/-! ### The round trip -/

/-- Settles O56: lanes load back as they were stored; at long size they are the whole register. -/
theorem movepRoundTrip : Obligations.MovepRoundTrip := by
  intro dx dy ay d16 s t hm
  refine ⟨exec_movep_round_trip (l := false) dy hm, fun h => ?_⟩
  obtain ⟨u, hexec, hread⟩ := exec_movep_round_trip (l := true) dy hm h
  exact ⟨u, hexec, (readD_four u dy).symm.trans (hread.trans (readD_four s dx))⟩

end Sys2Proof.Machine
end

section
/-! SUPPORT. The immediate-logical-on-status family (45_ccr_immediate.md R200 to R204): the three instructions complete in
the same way, so each obligation is the rule of the family taken at its operator. -/

namespace Sys2Proof.Machine

/-- The rule of the family (R200): each completes in every state, by the flag-byte write path (42 R169) with the immediate
masked; of the immediate only the bits of the five flags matter. -/
theorem exec_mkCcr_completes (op : CcrOp) (imm16 : BitVec 16) (s : State) : ∃ t, exec (mkCcr op imm16) s = .next t ∧
    (∀ i, i < 5 → t.sr.getLsbD i =
      (match op with
       | .or => s.sr.getLsbD i || imm16.getLsbD i
       | .and => s.sr.getLsbD i && imm16.getLsbD i
       | .eor => s.sr.getLsbD i ^^ imm16.getLsbD i)) ∧
    (∀ i, i < 5 → t.ft.getLsbD i =
      (match op with
       | .or => if imm16.getLsbD i then false else s.ft.getLsbD i
       | .and => if imm16.getLsbD i then s.ft.getLsbD i else false
       | .eor => s.ft.getLsbD i)) ∧
    t.sr.extractLsb' 5 3 = 0 ∧ t.sr.extractLsb' 8 8 = s.sr.extractLsb' 8 8 ∧
    t = { s with sr := t.sr, ft := t.ft, cycles := 8 } := by
  obtain ⟨hflags, htaints, hreserved, hhigh, -⟩ :=
    flagByteWritePath s op ((imm16 &&& Config.flagMask).setWidth 5)
  refine ⟨_, exec_mkCcr op imm16 s, fun i hi => ?_, fun i hi => ?_, hreserved, hhigh, rfl⟩
  · rw [← maskedImm_bit imm16 hi]
    exact hflags i hi
  · rw [← maskedImm_bit imm16 hi]
    exact htaints i hi

/-- Settles O57: the rule of the family at OR. -/
theorem oriCcrSetsFlags : Obligations.OriCcrSetsFlags := exec_mkCcr_completes .or

/-- Settles O58: the rule of the family at AND. -/
theorem andiCcrClearsFlags : Obligations.AndiCcrClearsFlags := exec_mkCcr_completes .and

/-- Settles O59: the rule of the family at EOR, taken twice for R204 (b): a flag inverted twice is the flag. -/
theorem eoriCcrInvertsFlags : Obligations.EoriCcrInvertsFlags := by
  intro imm16 s
  obtain ⟨t, hexec, hflags, htaints, hreserved, hhigh, hframe⟩ := exec_mkCcr_completes .eor imm16 s
  obtain ⟨u, hexec', hflags', htaints', -⟩ := exec_mkCcr_completes .eor imm16 t
  have hft : t.ft = s.ft := BitVec.eq_of_getLsbD_eq htaints
  have hft' : u.ft = t.ft := BitVec.eq_of_getLsbD_eq htaints'
  refine ⟨t, hexec, hflags, hft, hreserved, hhigh, hframe, u, hexec', ?_, hft'.trans hft⟩
  apply BitVec.eq_of_getLsbD_eq
  intro i hi
  calc u.flags.getLsbD i = u.sr.getLsbD i := flags_bit u hi
    _ = ((s.sr.getLsbD i ^^ imm16.getLsbD i) ^^ imm16.getLsbD i) := by rw [hflags' i hi, hflags i hi]
    _ = s.sr.getLsbD i := by rw [Bool.xor_assoc, Bool.xor_self, Bool.xor_false]
    _ = s.flags.getLsbD i := (flags_bit s hi).symm

end Sys2Proof.Machine
end

section
/-! SUPPORT. The latch (60_exceptions.md R218): set, it refuses every step; INIT clears it (70_reset_and_hazards.md R230). -/

namespace Sys2Proof.Machine

@[simp] theorem halt_halted (s : State) : s.halt.halted = true := rfl

@[simp] theorem init_halted (q : Init) (c : CycleTables) (m : Memory) : (init q c m).halted = false := rfl

/-- The latch is tested before anything is fetched (R218). -/
theorem step_of_halted {s : State} (h : s.halted = true) : step s = .refused .halted := by rw [step, if_pos h]

/-- Settles O10: a set latch refuses the step, `halt` sets it, and INIT leaves a running block, which refuses none. -/
theorem haltedBlockRefusesStep : Obligations.HaltedBlockRefusesStep :=
  ⟨fun _ => step_of_halted, fun s => step_of_halted (halt_halted s),
    fun q c m r => runningBlockNeverRefuses (init q c m) r (init_halted q c m)⟩

end Sys2Proof.Machine
end

section
/-! SUPPORT. INIT (70_reset_and_hazards.md R230): which fields of `SR` the mask of the load keeps and which it clears. -/

namespace Sys2Proof.Machine

/-- A field over which the mask has only ones is kept. -/
theorem extractLsb'_and_of_allOnes {w start len : Nat} {mask : BitVec w}
    (h : mask.extractLsb' start len = BitVec.allOnes len) (x : BitVec w) :
    (x &&& mask).extractLsb' start len = x.extractLsb' start len := by
  rw [BitVec.extractLsb'_and, h, BitVec.and_allOnes]

/-- A field over which the mask has only zeros is cleared. -/
theorem extractLsb'_and_of_zero {w start len : Nat} {mask : BitVec w}
    (h : mask.extractLsb' start len = 0) (x : BitVec w) : (x &&& mask).extractLsb' start len = 0 := by
  rw [BitVec.extractLsb'_and, h]
  exact BitVec.and_zero

/-- What INIT loads into `SR`: the record's high byte and flags, the reserved bits cleared. -/
theorem init_sr (r : Init) (c : CycleTables) (m : Memory) :
    (init r c m).sr.extractLsb' 8 8 = r.sr.extractLsb' 8 8 ∧ (init r c m).sr.extractLsb' 5 3 = 0 ∧
    (init r c m).sr.extractLsb' 0 5 = r.sr.extractLsb' 0 5 :=
  ⟨extractLsb'_and_of_allOnes (mask := 0xFF1F) (by decide) r.sr,
    extractLsb'_and_of_zero (mask := 0xFF1F) (by decide) r.sr,
    extractLsb'_and_of_allOnes (mask := 0xFF1F) (by decide) r.sr⟩

/-- Settles O20: every field but `SR` is loaded as supplied; `SR` goes through the mask. -/
theorem initLoadsEveryRegister : Obligations.InitLoadsEveryRegister := fun r c m =>
  ⟨rfl, rfl, rfl, rfl, rfl, rfl, init_halted r c m, rfl, rfl, init_sr r c m⟩

end Sys2Proof.Machine
end
